-- ==== Sys2Proof/Word.lean ====
section
/-! DEFINITION. The word types of the datapath and the registers (00_scope.md rules R3 to R5).

Every datapath value is an unsigned integer of a stated width (R4). The operators of R5 are those of `BitVec`:
`+` and `*` modulo 2^w, `^^^`, `|||`, `&&&`, and the logical shifts `<<<` and `>>>`. None sets a flag. -/

namespace Sys2Proof

/-- `u8`: one byte of the input space (R3, R4). -/
abbrev Byte := BitVec 8

/-- `u32`: a register, an input-space address, or a 32-bit datapath word (R2, R4). -/
abbrev Word := BitVec 32

/-- `u64`: a 64-bit datapath word (R4). -/
abbrev DWord := BitVec 64

end Sys2Proof
end

