-- ==== Sys2Proof/Config.lean ====
section
/-! DEFINITION. What a build and its platform fix (00_scope.md rules R1 and R8 to R12), the names of the nine
variants, and the free values.

The parameters are plain data. They stand in State's field `cfg`, which no step changes, so a claim about every
state is a claim about every build (log 3). LAT (R12) is no number here: a model represents no time (R1006), and the
schedule of State decides how many steps pass before a job completes (log 1). -/

namespace Sys2Proof

/-- The nine variants of the dispatch map (30_encoding.md rule R302), in the order of their codes. -/
inductive Variant where
  | mh2
  | mh2a
  | mhn2
  | mha2
  | mh3_32
  | mh64a
  | mh64b
  | mh3_x86_128
  | mh3_x64_128
  deriving DecidableEq, Repr

/-- NATIVE_ORDER: the byte order of native block words (00_scope.md rule R9). -/
inductive NativeOrder where
  | le
  | be
  deriving DecidableEq, Repr

/-- The input-space addresses from `lo` to `hi`, both included. -/
structure AddrRange where
  lo : Word
  hi : Word
  deriving DecidableEq, Repr

/-- The parameters of the block (00_scope.md rule R1). -/
structure Config where
  /-- ENABLED: bit v is 1 when variant code v is active (R8). -/
  enabled : BitVec 9
  /-- NATIVE_ORDER (R9). -/
  nativeOrder : NativeOrder
  /-- REG_BASE: the host's address of the register window (R10; log 12). -/
  regBase : Nat
  /-- BUS_OK, as the list of address ranges where it is FALSE (R11; log 4). -/
  busErrors : List AddrRange
  deriving DecidableEq, Repr

/-- DESIGN CHOICE (log 3), unsafe: the build of State.reset. ENABLED = 0x13D, NATIVE_ORDER = LE and no bus error are
the example build of 95_test_vectors.md sections 3.8 and 4; REG_BASE is OPEN and taken as 0. No statement rests on
these values but those whose title says so. -/
def Config.default : Config where
  enabled := 0x13D#9
  nativeOrder := .le
  regBase := 0
  busErrors := []

/-- The free values: the n-th draw (10_state.md rule R116; 93_implementation_defined.md U1 and U2). It has no body, so
nothing can be proved about a value of it. DESIGN CHOICE of form (logs 6 and 9), safe. -/
opaque Config.freeWord (n : Nat) : Word

end Sys2Proof
end

