-- ==== Sys2Proof/Syntax.lean ====
section
/-! DEFINITION. The instructions: one constructor per row of spec/opcode_table.json (30_encoding.md rules R300, R302).

An instruction is a command, a word written to CTRL with START = 1 (00_scope.md rule R7). Its one operand field is IE;
VARIANT is the constructor, and the reserved bits carry nothing (R303). The other operands are SEED, SRC and LEN (R304). -/

namespace Sys2Proof

/-- A command. `ie` is the command word's bit 9, the interrupt enable (R300). -/
inductive Instr where
  /-- MH2, code 0: MurmurHash2 (R501). -/
  | mh2 (ie : Bool)
  /-- MH2A, code 1: MurmurHash2A (R502). -/
  | mh2a (ie : Bool)
  /-- MHN2, code 2: MurmurHashNeutral2 (R503). -/
  | mhn2 (ie : Bool)
  /-- MHA2, code 3: MurmurHashAligned2 (R505). -/
  | mha2 (ie : Bool)
  /-- MH3_32, code 4: MurmurHash3_x86_32 (R701). -/
  | mh3_32 (ie : Bool)
  /-- MH64A, code 5: MurmurHash64A (R601). -/
  | mh64a (ie : Bool)
  /-- MH64B, code 6: MurmurHash64B (R602). -/
  | mh64b (ie : Bool)
  /-- MH3_X86_128, code 7: MurmurHash3_x86_128 (R702). -/
  | mh3_x86_128 (ie : Bool)
  /-- MH3_X64_128, code 8: MurmurHash3_x64_128 (R703). -/
  | mh3_x64_128 (ie : Bool)
  deriving DecidableEq, Repr

/-- The variant a command selects (R302). -/
def Instr.variant : Instr → Variant
  | .mh2 _ => .mh2
  | .mh2a _ => .mh2a
  | .mhn2 _ => .mhn2
  | .mha2 _ => .mha2
  | .mh3_32 _ => .mh3_32
  | .mh64a _ => .mh64a
  | .mh64b _ => .mh64b
  | .mh3_x86_128 _ => .mh3_x86_128
  | .mh3_x64_128 _ => .mh3_x64_128

/-- The interrupt-enable bit a command carries (R300). -/
def Instr.ie : Instr → Bool
  | .mh2 ie => ie
  | .mh2a ie => ie
  | .mhn2 ie => ie
  | .mha2 ie => ie
  | .mh3_32 ie => ie
  | .mh64a ie => ie
  | .mh64b ie => ie
  | .mh3_x86_128 ie => ie
  | .mh3_x64_128 ie => ie

end Sys2Proof
end

