-- ==== Sys2Proof/Decode.lean ====
section
/-! DEFINITION. The command word (30_encoding.md rules R300 to R303): a total decoder that rejects by name, and the
encoder.

Pattern, bit 31 on the left: `xxxxxxxxxxxxxxxxxxxxxxi1xxxxvvvv`. The bits marked x are ignored, whatever their value. -/

namespace Sys2Proof

/-- The variant code (R302). -/
def Variant.code : Variant → BitVec 4
  | .mh2 => 0
  | .mh2a => 1
  | .mhn2 => 2
  | .mha2 => 3
  | .mh3_32 => 4
  | .mh64a => 5
  | .mh64b => 6
  | .mh3_x86_128 => 7
  | .mh3_x64_128 => 8

/-- The variant a code selects; codes 9 to 15 are reserved (R302, R303). -/
def Variant.ofCode (v : BitVec 4) : Option Variant :=
  match v.toNat with
  | 0 => some .mh2
  | 1 => some .mh2a
  | 2 => some .mhn2
  | 3 => some .mha2
  | 4 => some .mh3_32
  | 5 => some .mh64a
  | 6 => some .mh64b
  | 7 => some .mh3_x86_128
  | 8 => some .mh3_x64_128
  | _ => none

/-- The command that selects a variant with interrupt enable `ie`. -/
def Variant.instr (ie : Bool) : Variant → Instr
  | .mh2 => .mh2 ie
  | .mh2a => .mh2a ie
  | .mhn2 => .mhn2 ie
  | .mha2 => .mha2 ie
  | .mh3_32 => .mh3_32 ie
  | .mh64a => .mh64a ie
  | .mh64b => .mh64b ie
  | .mh3_x86_128 => .mh3_x86_128 ie
  | .mh3_x64_128 => .mh3_x64_128 ie

/-- `CMD.VARIANT`, bits 3:0 (R300). -/
def cmdVariant (w : Word) : BitVec 4 := w.extractLsb' 0 4

/-- `CMD.START`, bit 8 (R300). -/
def cmdStart (w : Word) : Bool := w.getLsbD 8

/-- `CMD.IE`, bit 9 (R300). -/
def cmdIe (w : Word) : Bool := w.getLsbD 9

/-- Why a word written to CTRL is not an instruction. -/
inductive NotAnInstr where
  /-- Bit 8 is 0: a plain configuration write, not a command (R301). -/
  | noStart
  /-- A command whose code is one of 9 to 15 (R303); the block rejects it with error 1 (R802). -/
  | reservedCode (v : BitVec 4)
  deriving DecidableEq, Repr

/-- The instruction a word written to CTRL is, or why it is none (R301, R302, R303). -/
def decode (w : Word) : Except NotAnInstr Instr :=
  if cmdStart w then
    match Variant.ofCode (cmdVariant w) with
    | some v => .ok (v.instr (cmdIe w))
    | none => .error (.reservedCode (cmdVariant w))
  else .error .noStart

/-- The command word of an instruction, with zeros in the reserved bits (R300, R307). -/
def encode (i : Instr) : Word :=
  (0#22 ++ BitVec.ofBool i.ie ++ 1#1 ++ 0#4 ++ i.variant.code : BitVec 32)

/-- The instruction the decoder reads from a word numbered as spec/opcode_table.json numbers it. A command is exactly
one 32-bit word (R300): bits above `nbits` are 0, and nothing longer is a command. -/
def decodeTableWord (nbits w : Nat) : Option Instr :=
  if nbits ≤ 32 then (decode (BitVec.ofNat 32 (w % 2 ^ nbits))).toOption else none

end Sys2Proof
end

