-- ==== Sys2Proof/Machine/Bus.lean ====
section
/-! DEFINITION. The register window's names and offsets, bus accesses, the host's statements, and the turns of the
schedule (10_state.md rule R104; 30_encoding.md rule R306; 44_dispatch_job.md rule R800). -/

namespace Sys2Proof.Machine

/-- The registers of the window (10_state.md rule R104). `reserved k` is the slot at offset 0x2C + 4k (R115). -/
inductive Reg where
  | ctrl
  | status
  | seed
  | src
  | len
  | errAddr
  | res0
  | res1
  | res2
  | res3
  | caps
  | reserved (k : Fin 5)
  deriving DecidableEq, Repr

/-- The offset of a register in the window (R104). -/
def Reg.offset : Reg → Nat
  | .ctrl => 0x00
  | .status => 0x04
  | .seed => 0x08
  | .src => 0x0C
  | .len => 0x10
  | .errAddr => 0x14
  | .res0 => 0x18
  | .res1 => 0x1C
  | .res2 => 0x20
  | .res3 => 0x24
  | .caps => 0x28
  | .reserved k => 0x2C + 4 * k.val

/-- The register at an offset of the window; none where the offset is not a multiple of 4 or lies past 0x3C. -/
def Reg.ofOffset (off : Nat) : Option Reg :=
  if off % 4 = 0 then
    match off / 4 with
    | 0 => some .ctrl
    | 1 => some .status
    | 2 => some .seed
    | 3 => some .src
    | 4 => some .len
    | 5 => some .errAddr
    | 6 => some .res0
    | 7 => some .res1
    | 8 => some .res2
    | 9 => some .res3
    | 10 => some .caps
    | 11 => some (.reserved 0)
    | 12 => some (.reserved 1)
    | 13 => some (.reserved 2)
    | 14 => some (.reserved 3)
    | 15 => some (.reserved 4)
    | _ => none
  else none

/-- A bus access to the host's address space: where, and how many bytes wide (20_memory.md rule R207). -/
structure Access where
  addr : Nat
  bytes : Nat
  deriving DecidableEq, Repr

/-- The access that reaches a register: aligned, 32 bits, at REG_BASE + offset (10_state.md rule R104; R207). -/
def Reg.access (r : Reg) (regBase : Nat) : Access := ⟨regBase + r.offset, 4⟩

/-- One statement of a host (30_encoding.md rule R306), its registers given as bus accesses. -/
inductive HostStmt where
  /-- `WR <reg>, <value>` -/
  | wr (a : Access) (value : Word)
  /-- `RD <reg> -> $<name>` -/
  | rd (a : Access) (name : String)
  /-- `POLL <reg>, <mask>` -/
  | poll (a : Access) (mask : Word)
  /-- `MEM <addr>: <hex bytes>` -/
  | mem (addr : Word) (bytes : List Byte)
  deriving DecidableEq, Repr

/-- Whose step comes next (44_dispatch_job.md rule R800): a host step, the engine's completion step, or reset. -/
inductive Turn where
  | host
  | engine
  | reset
  deriving DecidableEq, Repr

end Sys2Proof.Machine
end

