-- ==== Sys2Proof/Machine/State.lean ====
section
/-! DEFINITION. The state of the block and of what the spec describes around it, as plain data, with the reasons a
step can stop and the state after reset (10_state.md; 70_reset_and_hazards.md rule R1000). -/

namespace Sys2Proof.Machine

/-- The input space's bytes: a list of cells at strictly rising addresses, none of them holding 0, the byte an
unlisted address reads as (20_memory.md rule R206; log 5). -/
abbrev Memory := List Host.Cell

/-- JOB, the snapshot of the running job (10_state.md rule R113). `code` is held as the variant it names: the issue
checks let no other code through (44_dispatch_job.md rule R805). -/
structure Job where
  code : Variant
  seed : Word
  src : Word
  n : Word
  deriving DecidableEq, Repr

/-- PHASE (10_state.md rule R112). JOB exists while BUSY; its value while IDLE is unspecified and no rule reads it
(R113; log 7). -/
inductive Phase where
  | idle
  | busy (job : Job)
  deriving DecidableEq, Repr

/-- RES0 to RES3 (10_state.md rule R111). -/
structure ResWords where
  w0 : Word
  w1 : Word
  w2 : Word
  w3 : Word
  deriving DecidableEq, Repr

/-- RES0 to RES3 all 0: after reset and after every error (R111). -/
def ResWords.zero : ResWords := ⟨0, 0, 0, 0⟩

/-- The state. -/
structure State where
  /-- The build and its platform (00_scope.md rule R1); no step changes it. -/
  cfg : Config
  /-- CTRL.VARIANT (10_state.md rule R105). -/
  variant : BitVec 4
  /-- CTRL.IE (R105). -/
  ie : Bool
  /-- PHASE and JOB (R112, R113). STATUS.BUSY is computed from it. -/
  phase : Phase
  /-- STATUS.DONE (R107). -/
  done : Bool
  /-- STATUS.ERR (R107). -/
  err : Bool
  /-- STATUS.ERRCODE (R107; 60_exceptions.md rule R900). -/
  errcode : BitVec 4
  /-- SEED (R109). -/
  seed : Word
  /-- SRC (R110). -/
  src : Word
  /-- LEN (R110). -/
  len : Word
  /-- ERRADDR (R118). -/
  errAddr : Word
  /-- RES0 to RES3 (R111). -/
  res : ResWords
  /-- MEM, the input space's bytes (20_memory.md rules R200 and R206). -/
  mem : Memory
  /-- The model's own: the addresses the input port has read, oldest first (20_memory.md rule R203; log 8). -/
  portReads : List Word
  /-- The model's own: a host wrote the running job's range during BUSY (20_memory.md rule R209; log 9). -/
  disturbed : Bool
  /-- The model's own: how many free values have been drawn (R116; logs 6 and 9). -/
  draws : Nat
  /-- The host's remaining statements, next first (30_encoding.md rule R306; logs 2 and 14). -/
  host : List HostStmt
  /-- What the host's RD statements have returned, oldest first (R306; 44_dispatch_job.md rule R810). -/
  observed : List (String × Word)
  /-- The model's own: the schedule, next turn first (44_dispatch_job.md rule R800; log 1). -/
  turns : List Turn
  deriving DecidableEq, Repr

/-- Why the machine stops with a fault. -/
inductive Fault where
  /-- Raised by a host's MEM statement whose bytes run past address 2^32 - 1, which does not exist (20_memory.md rule
  R200). Nothing is stored. Safe: the model stops. Log 11. -/
  | storePastInputSpace
  deriving DecidableEq, Repr

/-- Why a step has no meaning. -/
inductive Refusal where
  /-- Raised by exec for an instruction without a meaning yet. Safe. No arm raises it. -/
  | notModelled (mnemonic : String)
  /-- Raised by a host access inside the window that is not an aligned 32-bit access (20_memory.md rule R207;
  93_implementation_defined.md U3: "refuse"). Safe: the model stops. Log 10. -/
  | undefinedAccess
  /-- Raised by a host access outside the register window: it reaches another device, which the spec does not describe
  (20_memory.md rule R202). Safe: the model stops. Log 10. -/
  | outsideWindow
  deriving DecidableEq, Repr

/-- The state right after reset of a build, with the draws of SEED, SRC and LEN (70_reset_and_hazards.md rule R1000;
10_state.md section 5 and rule R116). No host statement and no schedule is in it (log 14). -/
def State.afterReset (cfg : Config) : State where
  cfg := cfg
  variant := 0
  ie := false
  phase := .idle
  done := false
  err := false
  errcode := 0
  seed := Config.freeWord 0
  src := Config.freeWord 1
  len := Config.freeWord 2
  errAddr := 0
  res := .zero
  mem := []
  portReads := []
  disturbed := false
  draws := 3
  host := []
  observed := []
  turns := []

/-- The machine right after reset (R1000), in the build of `Config.default` (log 3). -/
def State.reset : State := State.afterReset Config.default

end Sys2Proof.Machine
end

