-- ==== Sys2Proof/Machine/Flags.lean ====
section
/-! DEFINITION. The words a read of CTRL, STATUS and CAPS returns, the irq level, and the error codes (10_state.md rules
R105 to R107, R112, R114 and R119; 60_exceptions.md rule R900). No datapath operation sets a flag (R103). -/

namespace Sys2Proof.Machine

/-- ERRCODE 1, ILLEGAL_VARIANT (60_exceptions.md rule R900). -/
def errIllegalVariant : BitVec 4 := 1

/-- ERRCODE 2, RANGE (R900). -/
def errRange : BitVec 4 := 2

/-- ERRCODE 3, BUS_ERROR (R900). -/
def errBus : BitVec 4 := 3

/-- STATUS.BUSY: 1 exactly while PHASE = BUSY (10_state.md rule R112). -/
def State.busy (s : State) : Bool :=
  match s.phase with
  | .idle => false
  | .busy _ => true

/-- A read of CTRL (R106): reserved bits and START read 0. -/
def State.ctrlWord (s : State) : Word :=
  (0#22 ++ BitVec.ofBool s.ie ++ 0#1 ++ 0#4 ++ s.variant : BitVec 32)

/-- A read of STATUS (R107). -/
def State.statusWord (s : State) : Word :=
  (0#24 ++ s.errcode ++ 0#1 ++ BitVec.ofBool s.err ++ BitVec.ofBool s.done ++ BitVec.ofBool s.busy : BitVec 32)

/-- CAPS.NATIVE_BE (R114). -/
def NativeOrder.beBit : NativeOrder → BitVec 1
  | .le => 0
  | .be => 1

/-- A read of CAPS (R114). -/
def Config.capsWord (c : Config) : Word :=
  (0#15 ++ NativeOrder.beBit c.nativeOrder ++ 0#7 ++ c.enabled : BitVec 32)

/-- The irq output: the level `STATUS.DONE & CTRL.IE` (10_state.md rule R119; log 17). -/
def State.irq (s : State) : Bool := s.done && s.ie

end Sys2Proof.Machine
end

