-- ==== Sys2Proof/Machine/Operands.lean ====
section
/-! DEFINITION. A command's operands (30_encoding.md rule R304) and the word operands of the datapath, assembled from
the input bytes (R305; 40_primitives.md rules R400 to R404). `B` is the byte sequence of the job, B[0 .. n-1]. -/

namespace Sys2Proof.Machine

/-- The snapshot the block takes when it accepts variant `v`: SEED, SRC and LEN as they are (10_state.md rule R113). -/
def State.snapshot (s : State) (v : Variant) : Job := ⟨v, s.seed, s.src, s.len⟩

/-- `B[i]`. No rule reads a position at or past the length; such a position would give 0. -/
def byteAt (B : List Byte) (i : Nat) : Byte := B.getD i 0

/-- `zext_32(B[i])`. -/
def byte32 (B : List Byte) (i : Nat) : Word := (byteAt B i).setWidth 32

/-- `zext_64(B[i])`. -/
def byte64 (B : List Byte) (i : Nat) : DWord := (byteAt B i).setWidth 64

/-- The native 32-bit block word at position i (R400). -/
def rdn32 (o : NativeOrder) (B : List Byte) (i : Nat) : Word :=
  match o with
  | .le => byte32 B i ||| byte32 B (i + 1) <<< 8 ||| byte32 B (i + 2) <<< 16 ||| byte32 B (i + 3) <<< 24
  | .be => byte32 B i <<< 24 ||| byte32 B (i + 1) <<< 16 ||| byte32 B (i + 2) <<< 8 ||| byte32 B (i + 3)

/-- `f 0 + f 1 + … + f (c - 1)`. -/
def sumBelow (f : Nat → DWord) : Nat → DWord
  | 0 => 0
  | c + 1 => sumBelow f c + f c

/-- The native 64-bit block word at position i (R401). -/
def rdn64 (o : NativeOrder) (B : List Byte) (i : Nat) : DWord :=
  match o with
  | .le => sumBelow (fun j => byte64 B (i + j) <<< (8 * j)) 8
  | .be => sumBelow (fun j => byte64 B (i + j) <<< (8 * (7 - j))) 8

/-- Little-endian assembly of the c bytes at position i, 0 ≤ c ≤ 8 (R402). -/
def le (B : List Byte) (i c : Nat) : DWord := sumBelow (fun j => byte64 B (i + j) <<< (8 * j)) c

/-- `le` in a 32-bit context, c ≤ 4 (R402). -/
def le32 (B : List Byte) (i c : Nat) : Word := (le B i c).setWidth 32

/-- A 64-bit word with its eight bytes in the opposite order. -/
def byteReverse64 (w : DWord) : DWord :=
  sumBelow (fun j => (w >>> (8 * j) &&& 0xFF) <<< (8 * (7 - j))) 8

/-- The c bytes at position p, then the zero bytes the block supplies up to eight (R404): no input byte past them is
read. -/
def paddedTail (B : List Byte) (p c : Nat) : List Byte := (B.drop p).take c ++ List.replicate (8 - c) 0

/-- The tail handler with masking (R404): it takes the full-width NATIVE_ORDER word of the padded tail, byte-reverses
it under BE, and keeps the low c bytes. -/
def maskedTail (o : NativeOrder) (B : List Byte) (p c : Nat) : DWord :=
  let W := rdn64 o (paddedTail B p c) 0
  let low := BitVec.ofNat 64 (2 ^ (8 * c) - 1)
  match o with
  | .le => W &&& low
  | .be => byteReverse64 W &&& low

/-- The same with the mask first (R404): under BE the mask covers the high c bytes and the result is then
byte-reversed. -/
def maskedTailHigh (B : List Byte) (p c : Nat) : DWord :=
  let W := rdn64 .be (paddedTail B p c) 0
  byteReverse64 (W &&& (BitVec.ofNat 64 (2 ^ (8 * c) - 1)) <<< (8 * (8 - c)))

end Sys2Proof.Machine
end

