-- ==== Sys2Proof/Machine/Ops.lean ====
section
/-! DEFINITION. The named operations over memory, the platform oracle, the registers and the report of a job: memory
reads and writes; BUS_OK and ENABLED; the issue of a command with its checks; error entry and the acknowledge; reset;
the host's register accesses and stores. -/

namespace Sys2Proof

namespace Machine

/-! ### The input space (20_memory.md) -/

/-- What an unlisted byte of the input space reads as. DESIGN CHOICE (log 5), unsafe. -/
def unlistedByte : Byte := 0

/-- MEM(a) (20_memory.md rule R206). The list is in rising order, so the search ends at the first larger address. -/
def Memory.read : Memory → Nat → Byte
  | [], _ => unlistedByte
  | (k, b) :: rest, a =>
    if a < k then unlistedByte else if a = k then b else Memory.read rest a

/-- Store one byte, keeping the canonical form. -/
def Memory.write : Memory → Nat → Byte → Memory
  | [], a, v => if v = unlistedByte then [] else [(a, v)]
  | (k, b) :: rest, a, v =>
    if a < k then
      if v = unlistedByte then (k, b) :: rest else (a, v) :: (k, b) :: rest
    else if a = k then
      if v = unlistedByte then rest else (k, v) :: rest
    else (k, b) :: Memory.write rest a v

/-- Store bytes at a, a + 1 and onward (30_encoding.md rule R306). -/
def Memory.writeBytes : Memory → Nat → List Byte → Memory
  | m, _, [] => m
  | m, a, b :: bs => Memory.writeBytes (m.write a b) (a + 1) bs

/-- Every cell lies at `lo` or above and below 2^32, at strictly rising addresses, and holds no byte equal to the
unlisted one. -/
def Memory.wfFrom : Nat → Memory → Bool
  | _, [] => true
  | lo, (k, b) :: rest =>
    decide (lo ≤ k) && decide (k < 2 ^ 32) && decide (b ≠ unlistedByte) && Memory.wfFrom (k + 1) rest

/-- The canonical form of memory (log 5). -/
def Memory.wf (m : Memory) : Bool := Memory.wfFrom 0 m

/-- An address lies in a range. -/
def AddrRange.holds (r : AddrRange) (a : Nat) : Bool := decide (r.lo.toNat ≤ a) && decide (a ≤ r.hi.toNat)

/-- BUS_OK(a): a byte read at input address a completes (00_scope.md rule R11; log 4). -/
def Config.busOk (c : Config) (a : Nat) : Bool := c.busErrors.all fun r => !AddrRange.holds r a

/-- ENABLED[v] (00_scope.md rule R8). -/
def Config.active (c : Config) (v : Variant) : Bool := c.enabled.getLsbD v.code.toNat

/-- The running job's range [JOB.src, JOB.src + n) and the addresses from `a` on, `count` of them, have a byte in
common (20_memory.md rule R209). -/
def Job.meets (j : Job) (a count : Nat) : Bool :=
  decide (0 < count) && decide (0 < j.n.toNat) && decide (a < j.src.toNat + j.n.toNat) && decide (j.src.toNat < a + count)

/-! ### The report of a job: error entry and return -/

/-- Error entry, the one operation every error goes through (60_exceptions.md rule R903; 44_dispatch_job.md rules R802
and R807): PHASE IDLE, DONE 1, ERR 1, the code, ERRADDR, and RES. It saves nothing else, changes no mode and transfers
control nowhere. -/
def State.endWithError (code : BitVec 4) (addr : Word) (res : ResWords) (s : State) : State :=
  { s with phase := .idle, done := true, err := true, errcode := code, errAddr := addr, res := res }

/-- Completion with a result (R806). -/
def State.endWithResult (res : ResWords) (s : State) : State :=
  { s with phase := .idle, done := true, err := false, errcode := 0, errAddr := 0, res := res }

/-- The return from an error or a result: a write of w to STATUS clears the report if w[1] = 1 and DONE = 1, and does
nothing otherwise (10_state.md rule R108; 60_exceptions.md rule R904). -/
def State.acknowledge (w : Word) (s : State) : State :=
  if w.getLsbD 1 && s.done then { s with done := false, err := false, errcode := 0, errAddr := 0 } else s

/-! ### Issuing a command -/

/-- The first effect of every CTRL write, in every phase (10_state.md rule R106). -/
def State.setCtrl (v : BitVec 4) (ie : Bool) (s : State) : State := { s with variant := v, ie := ie }

/-- `reject(e)` (44_dispatch_job.md rule R802): the error entry with RES and ERRADDR 0. -/
def State.reject (code : BitVec 4) (s : State) : State := s.endWithError code 0 .zero

/-- `accept(v)` (R803): the snapshot is taken, PHASE becomes BUSY, the previous report is cleared; RES is kept. -/
def State.accept (v : Variant) (s : State) : State :=
  { s with phase := .busy (s.snapshot v), done := false, err := false, errcode := 0, errAddr := 0, disturbed := false }

/-- The input range does not wrap past the top: `zext_33(SRC) + zext_33(LEN) <= 2^32` (R802; 20_memory.md R201). -/
def State.rangeOk (s : State) : Bool := decide (s.src.toNat + s.len.toNat ≤ 2 ^ 32)

/-- `issue(v)` (R802): the code is checked first, then the range. -/
def State.issue (v : BitVec 4) (s : State) : State :=
  match Variant.ofCode v with
  | none => s.reject errIllegalVariant
  | some f =>
    if !Config.active s.cfg f then s.reject errIllegalVariant
    else if !s.rangeOk then s.reject errRange
    else s.accept f

/-- A CTRL write with START = 1 (R801): CTRL first, then nothing more while BUSY, else the issue. -/
def State.command (v : BitVec 4) (ie : Bool) (s : State) : State :=
  if s.busy then s.setCtrl v ie else (s.setCtrl v ie).issue v

/-- A CTRL write of any word (10_state.md rule R106; 30_encoding.md rule R301). -/
def State.writeCtrl (w : Word) (s : State) : State :=
  if cmdStart w then s.command (cmdVariant w) (cmdIe w) else s.setCtrl (cmdVariant w) (cmdIe w)

/-! ### Reset -/

/-- The reset event (70_reset_and_hazards.md rule R1000), enabled in every state: SEED, SRC and LEN are fresh draws, a
running job is abandoned without a completion (R1001). The build, the input space, the port's reads, the host and the
schedule are not the block's to reset (log 16). -/
def State.resetBlock (s : State) : State :=
  { s with
    variant := 0
    ie := false
    phase := .idle
    done := false
    err := false
    errcode := 0
    seed := Config.freeWord s.draws
    src := Config.freeWord (s.draws + 1)
    len := Config.freeWord (s.draws + 2)
    errAddr := 0
    res := .zero
    disturbed := false
    draws := s.draws + 3 }

/-! ### Host steps -/

/-- What a host access reaches: a register of the window, or a refusal (10_state.md rule R104; 20_memory.md rule R207;
log 10). -/
def Access.resolve (regBase : Nat) (a : Access) : Except Refusal Reg :=
  if a.addr < regBase ∨ regBase + 64 ≤ a.addr then .error .outsideWindow
  else if a.bytes ≠ 4 then .error .undefinedAccess
  else
    match Reg.ofOffset (a.addr - regBase) with
    | some r => .ok r
    | none => .error .undefinedAccess

/-- The value a read of a register returns; a read changes no state (10_state.md rules R105 to R111, R114, R115, R118). -/
def State.readReg (s : State) : Reg → Word
  | .ctrl => s.ctrlWord
  | .status => s.statusWord
  | .seed => s.seed
  | .src => s.src
  | .len => s.len
  | .errAddr => s.errAddr
  | .res0 => s.res.w0
  | .res1 => s.res.w1
  | .res2 => s.res.w2
  | .res3 => s.res.w3
  | .caps => Config.capsWord s.cfg
  | .reserved _ => 0

/-- A host write of a register (R106, R108 to R111, R114, R115, R118): writes to read-only registers and reserved
offsets are ignored. Operand writes are taken in every phase. -/
def State.writeReg (r : Reg) (w : Word) (s : State) : State :=
  match r with
  | .ctrl => s.writeCtrl w
  | .status => s.acknowledge w
  | .seed => { s with seed := w }
  | .src => { s with src := w }
  | .len => { s with len := w }
  | .errAddr => s
  | .res0 => s
  | .res1 => s
  | .res2 => s
  | .res3 => s
  | .caps => s
  | .reserved _ => s

/-- A host store of bytes from address a on (30_encoding.md rule R306), with the mark of 20_memory.md rule R209 if it
touches the running job's range. -/
def State.storeBytes (a : Nat) (bytes : List Byte) (s : State) : State :=
  match s.phase with
  | .idle => { s with mem := Memory.writeBytes s.mem a bytes }
  | .busy j =>
    { s with mem := Memory.writeBytes s.mem a bytes, disturbed := s.disturbed || Job.meets j a bytes.length }

/-- A value an RD statement returned (30_encoding.md rule R306; log 18). -/
def State.observe (name : String) (v : Word) (s : State) : State := { s with observed := s.observed ++ [(name, v)] }

/-- One host step (R306; 44_dispatch_job.md rule R800), the statement already taken off `host`. POLL puts itself back
while the masked value is 0. -/
def State.hostStep (stmt : HostStmt) (s : State) : Host.Outcome State Fault Refusal :=
  match stmt with
  | .wr a w =>
    match a.resolve s.cfg.regBase with
    | .ok r => .next (s.writeReg r w)
    | .error e => .refused e
  | .rd a name =>
    match a.resolve s.cfg.regBase with
    | .ok r => .next (s.observe name (s.readReg r))
    | .error e => .refused e
  | .poll a mask =>
    match a.resolve s.cfg.regBase with
    | .ok r => .next (if s.readReg r &&& mask ≠ 0 then s else { s with host := stmt :: s.host })
    | .error e => .refused e
  | .mem addr bytes =>
    if addr.toNat + bytes.length ≤ 2 ^ 32 then .next (s.storeBytes addr.toNat bytes) else .fault .storePastInputSpace

end Machine

end Sys2Proof
end

