-- ==== Sys2Proof/Machine/Primitives.lean ====
section
/-! DEFINITION. The mixing primitives, their constants, and the finalizers (40_primitives.md rules R405 to R417). Each
is a total function of its operands; none reads a register or raises an error. -/

namespace Sys2Proof.Machine

/-! Rotates (R405), for 0 < r < width. -/

/-- `rotl32(x, r)`. -/
def rotl32 (x : Word) (r : Nat) : Word := x <<< r ||| x >>> (32 - r)

/-- `rotl64(x, r)`. -/
def rotl64 (x : DWord) (r : Nat) : DWord := x <<< r ||| x >>> (64 - r)

/-! Constants (R407). -/

/-- m, the multiplier of the MurmurHash2 family and of MurmurHash64B. -/
def MH2_M : Word := 0x5BD1E995

/-- M64, the multiplier of MurmurHash64A. -/
def MH64A_M : DWord := 0xC6A4A7935BD1E995

/-! The MurmurHash2 family (R408 to R410). -/

/-- The block mixer: h is multiplied before k is xored in (R408). -/
def mix2 (h k : Word) : Word :=
  let k := k * MH2_M
  let k := k ^^^ k >>> 24
  let k := k * MH2_M
  let h := h * MH2_M
  h ^^^ k

/-- The tail step over the c bytes at position p; nothing when c = 0 (R409). -/
def tail2 (B : List Byte) (h : Word) (p c : Nat) : Word :=
  if c = 0 then h else (h ^^^ le32 B p c) * MH2_M

/-- The finalizer (R410). -/
def fin2 (h : Word) : Word :=
  let h := h ^^^ h >>> 13
  let h := h * MH2_M
  h ^^^ h >>> 15

/-! MurmurHash64A (R411, R412). -/

/-- The block mixer: k is xored in before h is multiplied (R411). -/
def mix64a (h k : DWord) : DWord :=
  let k := k * MH64A_M
  let k := k ^^^ k >>> 47
  let k := k * MH64A_M
  let h := h ^^^ k
  h * MH64A_M

/-- The tail step over the c bytes at position p; nothing when c = 0 (R412). -/
def tail64a (B : List Byte) (h : DWord) (p c : Nat) : DWord :=
  if c = 0 then h else (h ^^^ le B p c) * MH64A_M

/-- The finalizer (R412). -/
def fin64a (h : DWord) : DWord :=
  let h := h ^^^ h >>> 47
  let h := h * MH64A_M
  h ^^^ h >>> 47

/-! MurmurHash64B (R413). -/

/-- The combining cascade: each line uses the values the lines above it wrote; h1 is the high half (R413). -/
def fin64b (h1 h2 : Word) : DWord :=
  let h1 := (h1 ^^^ h2 >>> 18) * MH2_M
  let h2 := (h2 ^^^ h1 >>> 22) * MH2_M
  let h1 := (h1 ^^^ h2 >>> 17) * MH2_M
  let h2 := (h2 ^^^ h1 >>> 19) * MH2_M
  h1 ++ h2

/-! MurmurHash3 (R414 to R417). -/

/-- The 32-bit key mixer (R414). -/
def kmix32 (k ca : Word) (rk : Nat) (cb : Word) : Word := rotl32 (k * ca) rk * cb

/-- The 64-bit key mixer (R415). -/
def kmix64 (k ca : DWord) (rk : Nat) (cb : DWord) : DWord := rotl64 (k * ca) rk * cb

/-- The 32-bit avalanche finalizer (R416). -/
def fmix32 (h : Word) : Word :=
  let h := h ^^^ h >>> 16
  let h := h * 0x85EBCA6B
  let h := h ^^^ h >>> 13
  let h := h * 0xC2B2AE35
  h ^^^ h >>> 16

/-- The 64-bit avalanche finalizer (R417). -/
def fmix64 (h : DWord) : DWord :=
  let h := h ^^^ h >>> 33
  let h := h * 0xFF51AFD7ED558CCD
  let h := h ^^^ h >>> 33
  let h := h * 0xC4CEB9FE1A85EC53
  h ^^^ h >>> 33

/-! The block loop. -/

/-- The block processor's loop: `blocks` times, fold the block at byte position p into the accumulators and advance p
by `size`. The trip count depends on the length alone (44_dispatch_job.md rule R808). -/
def blockLoop {σ : Type} (size : Nat) (f : σ → Nat → σ) : (blocks p : Nat) → σ → σ
  | 0, _, acc => acc
  | blocks + 1, p, acc => blockLoop size f blocks (p + size) (f acc p)

end Sys2Proof.Machine
end

