-- ==== Sys2Proof/Machine/MurmurHash2.lean ====
section
/-! DEFINITION. The MurmurHash2 family, codes 0 to 3 (41_murmurhash2_family.md rules R500 to R506): the function of each
variant, and the meaning of each command.

A command's own step is its CTRL write (00_scope.md rule R7; 44_dispatch_job.md rules R801 to R803). The function is
applied by the engine's completion step (R805, R806). -/

namespace Sys2Proof.Machine

/-- MurmurHash2 (R501). `B` is the input, `n` its length. -/
def mh2 (o : NativeOrder) (B : List Byte) (seed n : Word) : Word :=
  let N := n.toNat
  let h := seed ^^^ n
  let h := blockLoop 4 (fun h p => mix2 h (rdn32 o B p)) (N / 4) 0 h
  let p := 4 * (N / 4)
  let h := tail2 B h p (N - p)
  fin2 h

/-- MurmurHash2A: no length in the seed; the tail word and then the length are always mixed (R502). -/
def mh2a (o : NativeOrder) (B : List Byte) (seed n : Word) : Word :=
  let N := n.toNat
  let h := seed
  let h := blockLoop 4 (fun h p => mix2 h (rdn32 o B p)) (N / 4) 0 h
  let p := 4 * (N / 4)
  let t := le32 B p (N - p)
  let h := mix2 h t
  let h := mix2 h n
  fin2 h

/-- MurmurHashNeutral2: block words are little-endian, never NATIVE_ORDER (R503). -/
def mhn2 (B : List Byte) (seed n : Word) : Word :=
  let N := n.toNat
  let h := seed ^^^ n
  let h := blockLoop 4 (fun h p => mix2 h (le32 B p 4)) (N / 4) 0 h
  let p := 4 * (N / 4)
  let h := tail2 B h p (N - p)
  fin2 h

/-- One step of MurmurHashAligned2's misaligned loop: the aligned group at p is read, and the carry word and it give
the next block word (R505). -/
def mha2Step (o : NativeOrder) (B : List Byte) (a : Nat) (ht : Word × Word) (p : Nat) : Word × Word :=
  let d := rdn32 o B p
  let t := ht.2 >>> (8 * a) ||| d <<< (8 * (4 - a))
  (mix2 ht.1 t, d)

/-- The end of MurmurHashAligned2's misaligned path: q bytes are left from p on, t is the carry word (R505). -/
def mha2Tail (B : List Byte) (a : Nat) (h t : Word) (p q : Nat) : Word :=
  if a ≤ q then
    let d := le32 B p a
    let k := t >>> (8 * a) ||| d <<< (8 * (4 - a))
    let h := mix2 h k
    tail2 B h (p + a) (q - a)
  else
    let d := le32 B p q
    (h ^^^ (t >>> (8 * a) ||| d <<< (8 * (4 - a)))) * MH2_M

/-- MurmurHashAligned2: `a` is JOB.src[1:0] (R505). -/
def mha2 (o : NativeOrder) (B : List Byte) (seed n : Word) (a : Nat) : Word :=
  let N := n.toNat
  if a = 0 ∨ N < 4 then mh2 o B seed n
  else
    let h := seed ^^^ n
    let t := le32 B 0 (4 - a) <<< (8 * a)
    let p := 4 - a
    let q := N - (4 - a)
    let ht := blockLoop 4 (mha2Step o B a) (q / 4) p (h, t)
    fin2 (mha2Tail B a ht.1 ht.2 (p + 4 * (q / 4)) (q % 4))

/-- MH2: the command with code 0 (R501, R801). -/
def execMh2 (ie : Bool) (s : State) : Host.Outcome State Fault Refusal :=
  .next (s.command (Variant.code .mh2) ie)

/-- MH2A: the command with code 1 (R502, R801). -/
def execMh2a (ie : Bool) (s : State) : Host.Outcome State Fault Refusal :=
  .next (s.command (Variant.code .mh2a) ie)

/-- MHN2: the command with code 2 (R503, R801). -/
def execMhn2 (ie : Bool) (s : State) : Host.Outcome State Fault Refusal :=
  .next (s.command (Variant.code .mhn2) ie)

/-- MHA2: the command with code 3 (R505, R801). -/
def execMha2 (ie : Bool) (s : State) : Host.Outcome State Fault Refusal :=
  .next (s.command (Variant.code .mha2) ie)

end Sys2Proof.Machine
end

