-- ==== Sys2Proof/Machine/MurmurHash3.lean ====
section
/-! DEFINITION. The MurmurHash3 family, codes 4, 7 and 8 (43_murmurhash3.md rules R700 to R704): the function of each
variant, and the meaning of each command. Constants: 40_primitives.md rule R407. -/

namespace Sys2Proof.Machine

/-! ### MurmurHash3_x86_32 (R701) -/

/-- The key mixer with x86_32's constants (R414). -/
def keyX86_32 (k : Word) : Word := kmix32 k 0xCC9E2D51 15 0x1B873593

/-- MurmurHash3_x86_32 (R701). -/
def mh3_32 (o : NativeOrder) (B : List Byte) (seed n : Word) : Word :=
  let N := n.toNat
  let h := seed
  let h := blockLoop 4 (fun h p => rotl32 (h ^^^ keyX86_32 (rdn32 o B p)) 13 * 5 + 0xE6546B64) (N / 4) 0 h
  let p := 4 * (N / 4)
  let c := N - p
  let h := if 0 < c then h ^^^ keyX86_32 (le32 B p c) else h
  let h := h ^^^ n
  fmix32 h

/-! ### MurmurHash3_x86_128 (R702) -/

/-- The four accumulators h[1] to h[4]. -/
structure Lanes4 where
  h1 : Word
  h2 : Word
  h3 : Word
  h4 : Word
  deriving DecidableEq, Repr

/-- The key mixer of lane 1: C[1], KR[1], C[2]. -/
def keyX86_128_1 (k : Word) : Word := kmix32 k 0x239B961B 15 0xAB0E9789

/-- The key mixer of lane 2: C[2], KR[2], C[3]. -/
def keyX86_128_2 (k : Word) : Word := kmix32 k 0xAB0E9789 16 0x38B34AE5

/-- The key mixer of lane 3: C[3], KR[3], C[4]. -/
def keyX86_128_3 (k : Word) : Word := kmix32 k 0x38B34AE5 17 0xA1E38B93

/-- The key mixer of lane 4: C[4], KR[4], C[1]. -/
def keyX86_128_4 (k : Word) : Word := kmix32 k 0xA1E38B93 18 0x239B961B

/-- One 16-byte block at p: lanes 1 to 4 in order; lane 4 adds lane 1 as already updated (R702). -/
def x86_128Block (o : NativeOrder) (B : List Byte) (l : Lanes4) (p : Nat) : Lanes4 :=
  let h1 := (rotl32 (l.h1 ^^^ keyX86_128_1 (rdn32 o B p)) 19 + l.h2) * 5 + 0x561CCD1B
  let h2 := (rotl32 (l.h2 ^^^ keyX86_128_2 (rdn32 o B (p + 4))) 17 + l.h3) * 5 + 0x0BCAA747
  let h3 := (rotl32 (l.h3 ^^^ keyX86_128_3 (rdn32 o B (p + 8))) 15 + l.h4) * 5 + 0x96CD1C35
  let h4 := (rotl32 (l.h4 ^^^ keyX86_128_4 (rdn32 o B (p + 12))) 13 + h1) * 5 + 0x32AC3B17
  ⟨h1, h2, h3, h4⟩

/-- How many of the c tail bytes fall in a lane that starts at tail byte `start` and is `width` bytes wide:
`min(max(c - start, 0), width)`. -/
def laneBytes (c start width : Nat) : Nat := min (c - start) width

/-- The tail of c bytes at p, lanes 4 to 1 (R702). -/
def x86_128Tail (B : List Byte) (l : Lanes4) (p c : Nat) : Lanes4 :=
  let h4 := if 0 < laneBytes c 12 4 then l.h4 ^^^ keyX86_128_4 (le32 B (p + 12) (laneBytes c 12 4)) else l.h4
  let h3 := if 0 < laneBytes c 8 4 then l.h3 ^^^ keyX86_128_3 (le32 B (p + 8) (laneBytes c 8 4)) else l.h3
  let h2 := if 0 < laneBytes c 4 4 then l.h2 ^^^ keyX86_128_2 (le32 B (p + 4) (laneBytes c 4 4)) else l.h2
  let h1 := if 0 < laneBytes c 0 4 then l.h1 ^^^ keyX86_128_1 (le32 B p (laneBytes c 0 4)) else l.h1
  ⟨h1, h2, h3, h4⟩

/-- The cross addition: h[1] takes all the others, and then each of them takes h[1] (R702). -/
def x86_128Cross (l : Lanes4) : Lanes4 :=
  let h1 := l.h1 + l.h2 + l.h3 + l.h4
  ⟨h1, l.h2 + h1, l.h3 + h1, l.h4 + h1⟩

/-- The finalization of length n (R702). -/
def x86_128Fin (l : Lanes4) (n : Word) : Lanes4 :=
  let l := x86_128Cross ⟨l.h1 ^^^ n, l.h2 ^^^ n, l.h3 ^^^ n, l.h4 ^^^ n⟩
  x86_128Cross ⟨fmix32 l.h1, fmix32 l.h2, fmix32 l.h3, fmix32 l.h4⟩

/-- MurmurHash3_x86_128 (R702). -/
def mh3_x86_128 (o : NativeOrder) (B : List Byte) (seed n : Word) : Lanes4 :=
  let N := n.toNat
  let l : Lanes4 := ⟨seed, seed, seed, seed⟩
  let l := blockLoop 16 (x86_128Block o B) (N / 16) 0 l
  let p := 16 * (N / 16)
  let l := x86_128Tail B l p (N - p)
  x86_128Fin l n

/-! ### MurmurHash3_x64_128 (R703) -/

/-- The two accumulators h1 and h2. -/
structure Lanes2 where
  h1 : DWord
  h2 : DWord
  deriving DecidableEq, Repr

/-- The key mixer of lane 1: C1, 31, C2. -/
def keyX64_128_1 (k : DWord) : DWord := kmix64 k 0x87C37B91114253D5 31 0x4CF5AD432745937F

/-- The key mixer of lane 2: C2, 33, C1. -/
def keyX64_128_2 (k : DWord) : DWord := kmix64 k 0x4CF5AD432745937F 33 0x87C37B91114253D5

/-- One 16-byte block at p: h1 adds h2 from before the block, h2 adds h1 as just updated (R703). -/
def x64_128Block (o : NativeOrder) (B : List Byte) (l : Lanes2) (p : Nat) : Lanes2 :=
  let h1 := (rotl64 (l.h1 ^^^ keyX64_128_1 (rdn64 o B p)) 27 + l.h2) * 5 + 0x52DCE729
  let h2 := (rotl64 (l.h2 ^^^ keyX64_128_2 (rdn64 o B (p + 8))) 31 + h1) * 5 + 0x38495AB5
  ⟨h1, h2⟩

/-- The tail of c bytes at p: bytes 8 and on to lane 2, the first eight to lane 1 (R703). -/
def x64_128Tail (B : List Byte) (l : Lanes2) (p c : Nat) : Lanes2 :=
  let h2 := if 8 < c then l.h2 ^^^ keyX64_128_2 (le B (p + 8) (c - 8)) else l.h2
  let h1 := if 0 < c then l.h1 ^^^ keyX64_128_1 (le B p (min c 8)) else l.h1
  ⟨h1, h2⟩

/-- The cross addition: h1 takes h2, then h2 takes h1 (R703). -/
def x64_128Cross (l : Lanes2) : Lanes2 :=
  let h1 := l.h1 + l.h2
  ⟨h1, l.h2 + h1⟩

/-- The finalization of length n (R703). -/
def x64_128Fin (l : Lanes2) (n : Word) : Lanes2 :=
  let l := x64_128Cross ⟨l.h1 ^^^ n.setWidth 64, l.h2 ^^^ n.setWidth 64⟩
  x64_128Cross ⟨fmix64 l.h1, fmix64 l.h2⟩

/-- MurmurHash3_x64_128 (R703). -/
def mh3_x64_128 (o : NativeOrder) (B : List Byte) (seed n : Word) : Lanes2 :=
  let N := n.toNat
  let l : Lanes2 := ⟨seed.setWidth 64, seed.setWidth 64⟩
  let l := blockLoop 16 (x64_128Block o B) (N / 16) 0 l
  let p := 16 * (N / 16)
  let l := x64_128Tail B l p (N - p)
  x64_128Fin l n

/-! ### The commands -/

/-- MH3_32: the command with code 4 (R701, R801). -/
def execMh3_32 (ie : Bool) (s : State) : Host.Outcome State Fault Refusal :=
  .next (s.command (Variant.code .mh3_32) ie)

/-- MH3_X86_128: the command with code 7 (R702, R801). -/
def execMh3_x86_128 (ie : Bool) (s : State) : Host.Outcome State Fault Refusal :=
  .next (s.command (Variant.code .mh3_x86_128) ie)

/-- MH3_X64_128: the command with code 8 (R703, R801). -/
def execMh3_x64_128 (ie : Bool) (s : State) : Host.Outcome State Fault Refusal :=
  .next (s.command (Variant.code .mh3_x64_128) ie)

end Sys2Proof.Machine
end

