-- ==== Sys2Proof/Machine/MurmurHash64.lean ====
section
/-! DEFINITION. MurmurHash64A and MurmurHash64B, codes 5 and 6 (42_murmurhash64.md rules R600 to R603): the function of
each variant, and the meaning of each command. -/

namespace Sys2Proof.Machine

/-- MurmurHash64A (R601). -/
def mh64a (o : NativeOrder) (B : List Byte) (seed n : Word) : DWord :=
  let N := n.toNat
  let h := seed.setWidth 64 ^^^ n.setWidth 64 * MH64A_M
  let h := blockLoop 8 (fun h p => mix64a h (rdn64 o B p)) (N / 8) 0 h
  let p := 8 * (N / 8)
  let h := tail64a B h p (N - p)
  fin64a h

/-- MurmurHash64B: two 32-bit lanes, a half block of four bytes to lane 1, the last 0 to 3 bytes to lane 2 (R602). -/
def mh64b (o : NativeOrder) (B : List Byte) (seed n : Word) : DWord :=
  let N := n.toNat
  let h := (seed ^^^ n, (0 : Word))
  let h := blockLoop 8 (fun h p => (mix2 h.1 (rdn32 o B p), mix2 h.2 (rdn32 o B (p + 4)))) (N / 8) 0 h
  let p := 8 * (N / 8)
  let half := decide (4 ≤ N - p)
  let h1 := if half then mix2 h.1 (rdn32 o B p) else h.1
  let p := if half then p + 4 else p
  let h2 := tail2 B h.2 p (N - p)
  fin64b h1 h2

/-- MH64A: the command with code 5 (R601, R801). -/
def execMh64a (ie : Bool) (s : State) : Host.Outcome State Fault Refusal :=
  .next (s.command (Variant.code .mh64a) ie)

/-- MH64B: the command with code 6 (R602, R801). -/
def execMh64b (ie : Bool) (s : State) : Host.Outcome State Fault Refusal :=
  .next (s.command (Variant.code .mh64b) ie)

end Sys2Proof.Machine
end

