-- ==== Sys2Proof/Machine/Engine.lean ====
section
/-! DEFINITION. The engine: the data phase, the variant dispatch mux, the placement of results, and the completion step
(44_dispatch_job.md rules R804 to R807; 10_state.md rule R111; 20_memory.md rules R201 to R206 and R209). -/

namespace Sys2Proof.Machine

/-- The outcome of a data phase (R804). -/
inductive DataOutcome where
  | ok (B : List Byte)
  | fault (fa : Nat)
  deriving DecidableEq, Repr

/-- A data phase: the addresses the input port read, in order, and the outcome. -/
structure DataPhase where
  reads : List Word
  outcome : DataOutcome
  deriving DecidableEq, Repr

/-- One more byte in front of what the rest of the data phase read. -/
def DataOutcome.cons (b : Byte) : DataOutcome → DataOutcome
  | .ok B => .ok (b :: B)
  | .fault fa => .fault fa

/-- The data phase over `n` bytes from address a on: one byte each, ascending, ending at the first read that fails
(R804; 20_memory.md rules R203, R205, R206). -/
def dataPhase (c : Config) (m : Memory) : (a n : Nat) → DataPhase
  | _, 0 => ⟨[], .ok []⟩
  | a, n + 1 =>
    if Config.busOk c a then
      let rest := dataPhase c m (a + 1) n
      ⟨BitVec.ofNat 32 a :: rest.reads, rest.outcome.cons (Memory.read m a)⟩
    else ⟨[BitVec.ofNat 32 a], .fault a⟩

/-- RES words of a 32-bit result (10_state.md rule R111). -/
def words32 (h : Word) : ResWords := ⟨h, 0, 0, 0⟩

/-- RES words of a 64-bit result: the low half first (R111). -/
def words64 (h : DWord) : ResWords := ⟨h.extractLsb' 0 32, h.extractLsb' 32 32, 0, 0⟩

/-- RES words of four 32-bit words (R111). -/
def words4x32 (l : Lanes4) : ResWords := ⟨l.h1, l.h2, l.h3, l.h4⟩

/-- RES words of two 64-bit words (R111). -/
def words2x64 (l : Lanes2) : ResWords :=
  ⟨l.h1.extractLsb' 0 32, l.h1.extractLsb' 32 32, l.h2.extractLsb' 0 32, l.h2.extractLsb' 32 32⟩

/-- The variant dispatch mux with the placement of the result (R805, R111): it selects by JOB.code and has no default
arm. `MHA2` alone reads JOB.src[1:0]. -/
def dispatch (o : NativeOrder) (B : List Byte) (j : Job) : ResWords :=
  match j.code with
  | .mh2 => words32 (mh2 o B j.seed j.n)
  | .mh2a => words32 (mh2a o B j.seed j.n)
  | .mhn2 => words32 (mhn2 B j.seed j.n)
  | .mha2 => words32 (mha2 o B j.seed j.n (j.src.extractLsb' 0 2).toNat)
  | .mh3_32 => words32 (mh3_32 o B j.seed j.n)
  | .mh64a => words64 (mh64a o B j.seed j.n)
  | .mh64b => words64 (mh64b o B j.seed j.n)
  | .mh3_x86_128 => words4x32 (mh3_x86_128 o B j.seed j.n)
  | .mh3_x64_128 => words2x64 (mh3_x64_128 o B j.seed j.n)

/-- RES words that are free values: draws d to d + 3 (93_implementation_defined.md U1; log 9). -/
def freeRes (d : Nat) : ResWords :=
  ⟨Config.freeWord d, Config.freeWord (d + 1), Config.freeWord (d + 2), Config.freeWord (d + 3)⟩

/-- The RES words a completion writes: `w`, or free values if a host wrote the job's range during BUSY (20_memory.md
rule R209; log 9). -/
def State.resOr (s : State) (w : ResWords) : ResWords := if s.disturbed then freeRes s.draws else w

/-- The draws a completion uses up: four in a disturbed job, none otherwise. -/
def State.useDraws (s : State) : State := if s.disturbed then { s with draws := s.draws + 4, disturbed := false } else s

/-- The engine step of job j: data phase, dispatch, report, in one atomic update (R804 to R807). -/
def State.completeJob (j : Job) (s : State) : State :=
  let d := dataPhase s.cfg s.mem j.src.toNat j.n.toNat
  let t := { s.useDraws with portReads := s.portReads ++ d.reads }
  match d.outcome with
  | .ok B => t.endWithResult (s.resOr (dispatch s.cfg.nativeOrder B j))
  | .fault fa => t.endWithError errBus (BitVec.ofNat 32 fa) (s.resOr .zero)

/-- The engine's turn: the completion step while BUSY, and no step while IDLE (R800). -/
def State.engineStep (s : State) : State :=
  match s.phase with
  | .idle => s
  | .busy j => s.completeJob j

end Sys2Proof.Machine
end

