-- ==== Sys2Proof/Machine/Dispatch.lean ====
section
/-! DEFINITION. One arm per constructor of Instr: the direct call of its meaning. -/

namespace Sys2Proof.Machine

/-- The meaning of an instruction: the CTRL write that issues the command. -/
def exec (i : Instr) (s : State) : Host.Outcome State Fault Refusal :=
  match i with
  | .mh2 ie => Sys2Proof.Machine.execMh2 ie s
  | .mh2a ie => Sys2Proof.Machine.execMh2a ie s
  | .mhn2 ie => Sys2Proof.Machine.execMhn2 ie s
  | .mha2 ie => Sys2Proof.Machine.execMha2 ie s
  | .mh3_32 ie => Sys2Proof.Machine.execMh3_32 ie s
  | .mh64a ie => Sys2Proof.Machine.execMh64a ie s
  | .mh64b ie => Sys2Proof.Machine.execMh64b ie s
  | .mh3_x86_128 ie => Sys2Proof.Machine.execMh3_x86_128 ie s
  | .mh3_x64_128 ie => Sys2Proof.Machine.execMh3_x64_128 ie s

end Sys2Proof.Machine
end

