-- ==== Sys2Proof/Machine/Fetch.lean ====
section
/-! DEFINITION. What the machine does next: the turn, the statement, and the command a CTRL write is (44_dispatch_job.md
rule R800; 00_scope.md rule R7). Nothing is fetched from memory: commands come from the host (R7; 20_memory.md rule
R200). -/

namespace Sys2Proof.Machine

/-- A move of one agent. -/
inductive Move where
  /-- A host's CTRL write whose word decodes to an instruction. -/
  | command (i : Instr)
  /-- Any other host statement. -/
  | host (stmt : HostStmt)
  /-- The engine's turn. -/
  | engine
  /-- The reset input. -/
  | reset
  /-- No agent has a move. -/
  | rest
  deriving DecidableEq, Repr

/-- The instruction a statement issues: a defined write to CTRL of a word that decodes (10_state.md rule R106; R301). -/
def commandOf (regBase : Nat) : HostStmt → Option Instr
  | .wr a w =>
    match a.resolve regBase with
    | .ok .ctrl => (decode w).toOption
    | _ => none
  | .rd _ _ => none
  | .poll _ _ => none
  | .mem _ _ => none

/-- The host's move, with its statement taken off `host`. -/
def State.hostMove (s : State) : Move × State :=
  match s.host with
  | [] => (.rest, s)
  | stmt :: rest =>
    match commandOf s.cfg.regBase stmt with
    | some i => (.command i, { s with host := rest })
    | none => (.host stmt, { s with host := rest })

/-- The next move and the state moved past it. The schedule says whose turn it is; once it is empty the engine goes
first, so that a running job completes (70_reset_and_hazards.md rule R1006), and then the host (log 1). -/
def State.nextMove (s : State) : Move × State :=
  match s.turns with
  | .host :: ts => { s with turns := ts }.hostMove
  | .engine :: ts => (.engine, { s with turns := ts })
  | .reset :: ts => (.reset, { s with turns := ts })
  | [] => if s.busy then (.engine, s) else s.hostMove

/-- The host's next statement becomes a write of the word w to CTRL, on the host's turn. -/
def State.issueNext (w : Word) (s : State) : State :=
  { s with host := .wr (Reg.access .ctrl s.cfg.regBase) w :: s.host, turns := .host :: s.turns }

end Sys2Proof.Machine
end

