-- ==== Sys2Proof/Machine/Step.lean ====
section
/-! DEFINITION. One step of the transition system (44_dispatch_job.md rule R800): the next move, and what its
agent does. -/

namespace Sys2Proof.Machine

/-- One step. -/
def step (s : State) : Host.Outcome State Fault Refusal :=
  match s.nextMove with
  | (.command i, t) => exec i t
  | (.host stmt, t) => t.hostStep stmt
  | (.engine, t) => .next t.engineStep
  | (.reset, t) => .next t.resetBlock
  | (.rest, t) => .next t

/-- The state whose very next step writes the word w to CTRL, which is how this machine runs an instruction (00_scope.md
rule R7; log 14). Bits above `nbits` are 0. -/
def State.withFetchWord (s : State) (nbits w : Nat) : State := s.issueNext (BitVec.ofNat 32 (w % 2 ^ nbits))

end Sys2Proof.Machine
end

