-- ==== Sys2Proof/Machine/Protocol.lean ====
section
/-! DEFINITION. The host's pseudo-instructions and their expansions into statements (30_encoding.md rule R307). -/

namespace Sys2Proof.Machine

/-- `WR <reg>, <value>`, at REG_BASE + offset (R306; 10_state.md rule R104). -/
def wrReg (regBase : Nat) (r : Reg) (value : Word) : HostStmt := .wr (r.access regBase) value

/-- `RD <reg> -> $<name>`. -/
def rdReg (regBase : Nat) (r : Reg) (name : String) : HostStmt := .rd (r.access regBase) name

/-- `HASH.<M> seed, src, n`, and `HASH.<M>.I` where the instruction carries IE = 1 (R307). -/
def hashStmts (regBase : Nat) (i : Instr) (seed src n : Word) : List HostStmt :=
  [wrReg regBase .seed seed, wrReg regBase .src src, wrReg regBase .len n, wrReg regBase .ctrl (encode i)]

/-- `WAIT`: poll STATUS until DONE = 1 (R307). -/
def waitStmts (regBase : Nat) : List HostStmt := [.poll (Reg.access .status regBase) 0x2]

/-- `ACK`: write 1 to STATUS.DONE (R307). -/
def ackStmts (regBase : Nat) : List HostStmt := [wrReg regBase .status 0x2]

/-- `RESULT -> $r0, $r1, $r2, $r3` (R307). -/
def resultStmts (regBase : Nat) (r0 r1 r2 r3 : String) : List HostStmt :=
  [rdReg regBase .res0 r0, rdReg regBase .res1 r1, rdReg regBase .res2 r2, rdReg regBase .res3 r3]

end Sys2Proof.Machine
end

