-- ==== Sys2Proof/WellFormed.lean ====
section
/-! DEFINITION. Well-formedness, as decidable checks: a build that conforms, a command that is legal in a build, and a
host statement the spec gives a meaning.

`Instr` needs no check of its own: its one operand is a bit, and every bit has an encoding (30_encoding.md rule R300). -/

namespace Sys2Proof

/-- The number of active variants of a build. -/
def Config.activeCount (c : Config) : Nat :=
  ((List.range 9).filter fun v => c.enabled.getLsbD v).length

/-- A conforming build: codes 0, 2 and 5 are active, and exactly six codes are (00_scope.md rule R8). -/
def Config.wf (c : Config) : Bool :=
  c.enabled.getLsbD 0 && c.enabled.getLsbD 2 && c.enabled.getLsbD 5 && c.activeCount == 6

/-- The command is legal in the build: its code is active (30_encoding.md rule R303). -/
def Instr.legalIn (c : Config) (i : Instr) : Bool := c.enabled.getLsbD i.variant.code.toNat

namespace Machine

/-- A defined access: inside the window, 32 bits wide, at an offset that is a multiple of 4 (20_memory.md rule R207). -/
def Access.wf (regBase : Nat) (a : Access) : Bool :=
  decide (regBase ≤ a.addr) && decide (a.addr < regBase + 64) && a.bytes == 4 && (a.addr - regBase) % 4 == 0

/-- A statement with a meaning: a defined access, or a store that stays inside the input space (R200, R207). -/
def HostStmt.wf (regBase : Nat) : HostStmt → Bool
  | .wr a _ => a.wf regBase
  | .rd a _ => a.wf regBase
  | .poll a _ => a.wf regBase
  | .mem addr bytes => decide (addr.toNat + bytes.length ≤ 2 ^ 32)

end Machine

end Sys2Proof
end

