-- ==== Sys2Proof/Safety.lean ====
section
/-! DEFINITION. What counts as a good state and a safe run, and the words claims are stated in: whose step is next, the
conditions under which a command is accepted, the bytes and addresses of a job's input. They are written from the
spec's text and do not call the step's own helpers, so that a claim can find a fault in those. -/

namespace Sys2Proof.Machine

/-! ### Invariants -/

/-- The invariants of STATUS (10_state.md rule R107), of ERRADDR (R118) and of ERRCODE's range (60_exceptions.md rule
R900). -/
def State.StatusInv (s : State) : Prop :=
  (s.phase ≠ .idle → s.done = false) ∧ (s.err = true → s.done = true) ∧ (s.errcode ≠ 0 ↔ s.err = true) ∧
    s.errcode.toNat ≤ 3 ∧ (s.errAddr ≠ 0 → s.errcode = 3)

/-- A running job has an active code and a range that does not wrap (44_dispatch_job.md rule R805; 20_memory.md rule
R201), and only a running job is disturbed (log 9). -/
def State.JobInv (s : State) : Prop :=
  (∀ j, s.phase = .busy j → s.cfg.enabled.getLsbD j.code.code.toNat = true ∧ j.src.toNat + j.n.toNat ≤ 2 ^ 32) ∧
    (s.disturbed = true → s.phase ≠ .idle)

/-- The input space's bytes are in canonical form (log 5). -/
def State.MemInv (s : State) : Prop := Memory.wf s.mem = true

/-- A good state. -/
def State.Inv (s : State) : Prop := s.StatusInv ∧ s.JobInv ∧ s.MemInv

/-- The host keeps its duties (70_reset_and_hazards.md rule R1004): its statements have a meaning, and no host has
written the running job's range. -/
def State.DutiesKept (s : State) : Prop :=
  (∀ stmt ∈ s.host, HostStmt.wf s.cfg.regBase stmt = true) ∧ s.disturbed = false

/-- A run of k steps is safe if it ends in a next state that is good. -/
def SafeRun (k : Nat) (s : State) : Prop :=
  match k with
  | 0 => s.Inv
  | k + 1 => s.Inv ∧ ∃ t, step s = .next t ∧ SafeRun k t

/-! ### Whose step is next (44_dispatch_job.md rule R800; log 1) -/

/-- The next step is the host's, its next statement is `stmt`, and `t` is `s` moved past turn and statement. -/
def HostNext (s : State) (stmt : HostStmt) (t : State) : Prop :=
  ∃ rest, s.host = stmt :: rest ∧
    ((∃ ts, s.turns = .host :: ts ∧ t = { s with host := rest, turns := ts }) ∨
      (s.turns = [] ∧ s.phase = .idle ∧ t = { s with host := rest }))

/-- The next step is the engine's, and `t` is `s` moved past the turn. -/
def EngineNext (s t : State) : Prop :=
  (∃ ts, s.turns = .engine :: ts ∧ t = { s with turns := ts }) ∨ (s.turns = [] ∧ s.phase ≠ .idle ∧ t = s)

/-- The next step is reset, and `t` is `s` moved past the turn. -/
def ResetNext (s t : State) : Prop := ∃ ts, s.turns = .reset :: ts ∧ t = { s with turns := ts }

/-! ### A job's operands and input -/

/-- The state accepts a command for variant `v` (44_dispatch_job.md rules R801 and R802): IDLE, an active code, a range
that does not wrap. -/
def State.Accepts (s : State) (v : Variant) : Prop :=
  s.phase = .idle ∧ s.cfg.enabled.getLsbD v.code.toNat = true ∧ s.src.toNat + s.len.toNat ≤ 2 ^ 32

/-- Every byte of the range of `n` bytes at `src` answers a read (00_scope.md rule R11). -/
def Readable (c : Config) (src n : Word) : Prop := ∀ k, k < n.toNat → Config.busOk c (src.toNat + k) = true

/-- The bytes MEM(a), MEM(a + 1), …, `n` of them (20_memory.md rules R201 and R206). -/
def inputBytes (m : Memory) (a n : Nat) : List Byte := (List.range n).map fun i => Memory.read m (a + i)

/-- The addresses a, a + 1, …, `n` of them. -/
def addressesFrom (a n : Nat) : List Word := (List.range n).map fun i => BitVec.ofNat 32 (a + i)

end Sys2Proof.Machine
end

