-- ==== Sys2Proof/Certificates/Slice0/Obligations.lean ====
section
/-! DEFINITION. The statements for the provers. OBLIGATIONS.json lists them with their titles and rules. -/

namespace Sys2Proof.Machine

/-- The command `i`, issued in `s` and completed by the engine without a bus error, reports the result `r`: exec answers
a next state that is BUSY with the snapshot and with RES kept, and the engine's step from it writes `r` and a clean
report, having read exactly the input's addresses in ascending order (44_dispatch_job.md rules R803, R804, R806). -/
def JobReports (i : Instr) (s : State) (r : ResWords) : Prop :=
  ∃ t, exec i s = .next t ∧
    t.phase = .busy ⟨i.variant, s.seed, s.src, s.len⟩ ∧ t.res = s.res ∧
    t.engineStep =
      { s with
        variant := i.variant.code
        ie := i.ie
        phase := .idle
        done := true
        err := false
        errcode := 0
        errAddr := 0
        res := r
        disturbed := false
        portReads := s.portReads ++ addressesFrom s.src.toNat s.len.toNat }

/-- The bytes of the input that SRC and LEN describe. -/
def State.input (s : State) : List Byte := inputBytes s.mem s.src.toNat s.len.toNat

end Sys2Proof.Machine

open Sys2Proof Sys2Proof.Machine

/-! ### Encoding -/

/-- Decode and encode agree: decoding an encoded instruction gives it back, and the words that decode to an instruction
are exactly those that equal its encoding on START, IE and VARIANT, whatever the reserved bits hold. -/
def Obligations.DecodeAndEncodeAgree : Prop :=
  (∀ i : Instr, decode (encode i) = .ok i) ∧
    ∀ (w : Word) (i : Instr), decode w = .ok i ↔ w &&& 0x0000030F#32 = encode i

/-- The decoder rejects by name exactly the words without START and the commands with a code of 9 to 15. -/
def Obligations.DecoderRejectsByName : Prop :=
  ∀ w : Word,
    (decode w = .error .noStart ↔ w.getLsbD 8 = false) ∧
      ∀ v : BitVec 4,
        (decode w = .error (.reservedCode v) ↔ w.getLsbD 8 = true ∧ w.extractLsb' 0 4 = v ∧ 9 ≤ v.toNat)

/-- The command words of the nine rows, written out from R300 and R302, and four words that are no instruction. -/
def Obligations.CommandWordsDecode : Prop :=
  decode 0x00000100#32 = .ok (.mh2 false) ∧ decode 0x00000301#32 = .ok (.mh2a true) ∧
    decode 0x00000102#32 = .ok (.mhn2 false) ∧ decode 0x00000303#32 = .ok (.mha2 true) ∧
    decode 0x00000104#32 = .ok (.mh3_32 false) ∧ decode 0x00000305#32 = .ok (.mh64a true) ∧
    decode 0x00000106#32 = .ok (.mh64b false) ∧ decode 0x00000307#32 = .ok (.mh3_x86_128 true) ∧
    decode 0x00000108#32 = .ok (.mh3_x64_128 false) ∧ decode 0xFFFFFFF8#32 = .ok (.mh3_x64_128 true) ∧
    decode 0x00000207#32 = .error .noStart ∧ decode 0xFFFFFEF4#32 = .error .noStart ∧
    decode 0x00000109#32 = .error (.reservedCode 9) ∧ decode 0x0000010F#32 = .error (.reservedCode 15)

/-! ### A step runs the decoded instruction -/

/-- When the host's next step writes to CTRL a word that decodes to `i`, the step is exec of `i` at the state moved past
the turn and the statement. -/
def Obligations.StepRunsTheDecodedCommand : Prop :=
  ∀ (s t : State) (w : Word) (i : Instr),
    HostNext s (.wr (Reg.access .ctrl s.cfg.regBase) w) t → decode w = .ok i → step s = exec i t

/-! ### Issuing a command: every instruction -/

/-- Every instruction, issued while IDLE with an active code and a range that does not wrap, is accepted: exec answers
the next state in which JOB holds the operands as they are, BUSY is set, the previous report is cleared, CTRL shows the
command, and everything else, RES among it, is as before (R803). -/
def Obligations.EveryCommandIsAccepted : Prop :=
  ∀ (i : Instr) (s : State), s.Accepts i.variant →
    exec i s = .next
      { s with
        variant := i.variant.code
        ie := i.ie
        phase := .busy ⟨i.variant, s.seed, s.src, s.len⟩
        done := false
        err := false
        errcode := 0
        errAddr := 0
        disturbed := false }

/-- A command issued while BUSY changes CTRL and nothing else; issued while IDLE it is checked and either rejected or
accepted (R801), for every word with START = 1 and for every instruction. -/
def Obligations.CommandWhileBusyIsIgnored : Prop :=
  (∀ (i : Instr) (s : State), s.phase ≠ .idle →
      exec i s = .next { s with variant := i.variant.code, ie := i.ie }) ∧
    ∀ (s t : State) (w : Word), HostNext s (.wr (Reg.access .ctrl s.cfg.regBase) w) t → w.getLsbD 8 = true →
      (s.phase ≠ .idle →
          step s = .next { t with variant := w.extractLsb' 0 4, ie := w.getLsbD 9 }) ∧
        (s.phase = .idle →
          step s =
            .next (State.issue (w.extractLsb' 0 4) { t with variant := w.extractLsb' 0 4, ie := w.getLsbD 9 }))

/-- The issue checks in their order (R802), over any written word with START = 1: an illegal code is rejected with error
1 whatever the range, a legal code with a wrapping range with error 2, and every other command is accepted. A rejection
writes RES and ERRADDR 0 and reads no input byte; PHASE stays IDLE. -/
def Obligations.IssueChecksInOrder : Prop :=
  ∀ (s t : State) (w : Word), HostNext s (.wr (Reg.access .ctrl s.cfg.regBase) w) t → w.getLsbD 8 = true →
    s.phase = .idle →
    (8 < (w.extractLsb' 0 4).toNat ∨ s.cfg.enabled.getLsbD (w.extractLsb' 0 4).toNat = false →
        step s = .next
          { t with
            variant := w.extractLsb' 0 4, ie := w.getLsbD 9, phase := .idle, done := true, err := true,
            errcode := 1, errAddr := 0, res := ⟨0, 0, 0, 0⟩ }) ∧
      (s.cfg.enabled.getLsbD (w.extractLsb' 0 4).toNat = true → 2 ^ 32 < s.src.toNat + s.len.toNat →
        step s = .next
          { t with
            variant := w.extractLsb' 0 4, ie := w.getLsbD 9, phase := .idle, done := true, err := true,
            errcode := 2, errAddr := 0, res := ⟨0, 0, 0, 0⟩ }) ∧
      (s.cfg.enabled.getLsbD (w.extractLsb' 0 4).toNat = true → s.src.toNat + s.len.toNat ≤ 2 ^ 32 →
        ∃ v : Variant, v.code = w.extractLsb' 0 4 ∧
          step s = .next
            { t with
              variant := w.extractLsb' 0 4, ie := w.getLsbD 9, phase := .busy ⟨v, s.seed, s.src, s.len⟩,
              done := false, err := false, errcode := 0, errAddr := 0, disturbed := false })

/-- Reserved and inactive codes (R303): a command written while IDLE is rejected with error 1 exactly when its code is 9 to
15 or inactive in the build, whatever the word's reserved bits hold. -/
def Obligations.ReservedAndInactiveCodesAreRejected : Prop :=
  ∀ (s t : State) (w : Word), HostNext s (.wr (Reg.access .ctrl s.cfg.regBase) w) t → s.phase = .idle →
    w.getLsbD 8 = true →
    ∃ u, step s = .next u ∧ u.variant = w.extractLsb' 0 4 ∧
      (u.done = true ∧ u.err = true ∧ u.errcode = 1 ∧ u.phase = .idle ↔
        9 ≤ (w.extractLsb' 0 4).toNat ∨ s.cfg.enabled.getLsbD (w.extractLsb' 0 4).toNat = false)

/-- What a command leaves unchanged, for every instruction: the build, the operands, the input space, the port, the host
and the schedule always; the phase and the report while BUSY; RES unless the command is rejected. -/
def Obligations.CommandFrame : Prop :=
  ∀ (i : Instr) (s t : State), exec i s = .next t →
    t.variant = i.variant.code ∧ t.ie = i.ie ∧
    t.cfg = s.cfg ∧ t.seed = s.seed ∧ t.src = s.src ∧ t.len = s.len ∧ t.portReads = s.portReads ∧
    t.draws = s.draws ∧ t.host = s.host ∧ t.observed = s.observed ∧ t.turns = s.turns ∧
    (∀ a, Memory.read t.mem a = Memory.read s.mem a) ∧
    (s.phase ≠ .idle →
      t.phase = s.phase ∧ t.done = s.done ∧ t.err = s.err ∧ t.errcode = s.errcode ∧ t.errAddr = s.errAddr ∧
        t.disturbed = s.disturbed) ∧
    (t.phase ≠ .idle → t.res = s.res) ∧ (t.res ≠ s.res → t.err = true)

/-! ### Jobs: command and completion, with the result of each variant -/

/-- The MurmurHash2 family: MH2, MH2A, MHN2 and MHA2 put their 32-bit result in RES0 and 0 in the other words (R501,
R502, R503, R505). -/
def Obligations.MurmurHash2JobsReportTheirHash : Prop :=
  ∀ (ie : Bool) (s : State), Readable s.cfg s.src s.len →
    (s.Accepts .mh2 → JobReports (.mh2 ie) s ⟨mh2 s.cfg.nativeOrder s.input s.seed s.len, 0, 0, 0⟩) ∧
      (s.Accepts .mh2a → JobReports (.mh2a ie) s ⟨mh2a s.cfg.nativeOrder s.input s.seed s.len, 0, 0, 0⟩) ∧
      (s.Accepts .mhn2 → JobReports (.mhn2 ie) s ⟨mhn2 s.input s.seed s.len, 0, 0, 0⟩) ∧
      (s.Accepts .mha2 →
        JobReports (.mha2 ie) s
          ⟨mha2 s.cfg.nativeOrder s.input s.seed s.len (s.src.toNat % 4), 0, 0, 0⟩)

/-- MH64A and MH64B put the low half of their 64-bit result in RES0 and the high half in RES1 (R601, R602). -/
def Obligations.MurmurHash64JobsReportTheirHash : Prop :=
  ∀ (ie : Bool) (s : State), Readable s.cfg s.src s.len →
    (s.Accepts .mh64a → ∃ lo hi, hi ++ lo = mh64a s.cfg.nativeOrder s.input s.seed s.len ∧
        JobReports (.mh64a ie) s ⟨lo, hi, 0, 0⟩) ∧
      (s.Accepts .mh64b → ∃ lo hi, hi ++ lo = mh64b s.cfg.nativeOrder s.input s.seed s.len ∧
        JobReports (.mh64b ie) s ⟨lo, hi, 0, 0⟩)

/-- MH3_32, MH3_X86_128 and MH3_X64_128 place their results as R111 says (R701, R702, R703). -/
def Obligations.MurmurHash3JobsReportTheirHash : Prop :=
  ∀ (ie : Bool) (s : State), Readable s.cfg s.src s.len →
    (s.Accepts .mh3_32 → JobReports (.mh3_32 ie) s ⟨mh3_32 s.cfg.nativeOrder s.input s.seed s.len, 0, 0, 0⟩) ∧
      (s.Accepts .mh3_x86_128 →
        JobReports (.mh3_x86_128 ie) s
          ⟨(mh3_x86_128 s.cfg.nativeOrder s.input s.seed s.len).h1,
            (mh3_x86_128 s.cfg.nativeOrder s.input s.seed s.len).h2,
            (mh3_x86_128 s.cfg.nativeOrder s.input s.seed s.len).h3,
            (mh3_x86_128 s.cfg.nativeOrder s.input s.seed s.len).h4⟩) ∧
      (s.Accepts .mh3_x64_128 → ∃ w0 w1 w2 w3 : Word,
        w1 ++ w0 = (mh3_x64_128 s.cfg.nativeOrder s.input s.seed s.len).h1 ∧
          w3 ++ w2 = (mh3_x64_128 s.cfg.nativeOrder s.input s.seed s.len).h2 ∧
          JobReports (.mh3_x64_128 ie) s ⟨w0, w1, w2, w3⟩)

/-! ### The engine -/

/-- The data phase over any range: it succeeds with the bytes of MEM exactly when every address answers, and fails at
the least address that does not; the port reads the addresses in ascending order, once each, up to the failing one. -/
def Obligations.DataPhaseReadsInOrder : Prop :=
  ∀ (c : Config) (m : Memory) (a n : Nat),
    ((∀ k, k < n → Config.busOk c (a + k) = true) →
        dataPhase c m a n = ⟨addressesFrom a n, .ok (inputBytes m a n)⟩) ∧
      ∀ k, k < n → (∀ i, i < k → Config.busOk c (a + i) = true) → Config.busOk c (a + k) = false →
        dataPhase c m a n = ⟨addressesFrom a (k + 1), .fault (a + k)⟩

/-- Completion with a result (R806): on the engine's turn a job whose range was readable and untouched ends with the
result that the function of JOB.code gives on the bytes, the seed, the length and the source's low bits, in one step. -/
def Obligations.CompletionWritesTheResult : Prop :=
  ∀ (s t : State) (j : Job), EngineNext s t → s.phase = .busy j → s.disturbed = false → Readable s.cfg j.src j.n →
    step s = .next
      { t with
        phase := .idle
        done := true
        err := false
        errcode := 0
        errAddr := 0
        res := dispatch s.cfg.nativeOrder (inputBytes s.mem j.src.toNat j.n.toNat) j
        portReads := s.portReads ++ addressesFrom j.src.toNat j.n.toNat }

/-- Completion with a bus error (R807, R902): the least failing address of the range is in ERRADDR, RES is 0, the code is
3, the port read the addresses up to the failing one once each and nothing after it. -/
def Obligations.CompletionReportsTheBusError : Prop :=
  ∀ (s t : State) (j : Job) (k : Nat), EngineNext s t → s.phase = .busy j → s.disturbed = false →
    j.src.toNat + j.n.toNat ≤ 2 ^ 32 → k < j.n.toNat → (∀ i, i < k → Config.busOk s.cfg (j.src.toNat + i) = true) →
    Config.busOk s.cfg (j.src.toNat + k) = false →
    ∃ fa : Word, fa.toNat = j.src.toNat + k ∧
      step s = .next
        { t with
          phase := .idle
          done := true
          err := true
          errcode := 3
          errAddr := fa
          res := ⟨0, 0, 0, 0⟩
          portReads := s.portReads ++ addressesFrom j.src.toNat (k + 1) }

/-- A job whose range a host wrote during BUSY (R209, U1): it completes all the same, with the report BUS_OK alone
decides; its RES words are not stated, and four draws are used up. That RES is also open when the job ends with a bus
error, and that the draws are counted, is the model's choice (log 9). -/
def Obligations.DisturbedJobStillCompletes : Prop :=
  ∀ (s t : State) (j : Job), EngineNext s t → s.phase = .busy j → s.disturbed = true →
    (Readable s.cfg j.src j.n → ∃ r,
        step s = .next
          { t with
            phase := .idle, done := true, err := false, errcode := 0, errAddr := 0, res := r, disturbed := false,
            draws := s.draws + 4, portReads := s.portReads ++ addressesFrom j.src.toNat j.n.toNat }) ∧
      ∀ k, k < j.n.toNat → (∀ i, i < k → Config.busOk s.cfg (j.src.toNat + i) = true) →
        Config.busOk s.cfg (j.src.toNat + k) = false → ∃ r,
          step s = .next
            { t with
              phase := .idle, done := true, err := true, errcode := 3,
              errAddr := BitVec.ofNat 32 (j.src.toNat + k), res := r, disturbed := false, draws := s.draws + 4,
              portReads := s.portReads ++ addressesFrom j.src.toNat (k + 1) }

/-- The mux selects by JOB.code (R805) and the result goes to RES0 to RES3 as R111's table says, for all nine codes. -/
def Obligations.DispatchSelectsByJobCode : Prop :=
  ∀ (o : NativeOrder) (B : List Byte) (seed src n : Word),
    dispatch o B ⟨.mh2, seed, src, n⟩ = ⟨mh2 o B seed n, 0, 0, 0⟩ ∧
      dispatch o B ⟨.mh2a, seed, src, n⟩ = ⟨mh2a o B seed n, 0, 0, 0⟩ ∧
      dispatch o B ⟨.mhn2, seed, src, n⟩ = ⟨mhn2 B seed n, 0, 0, 0⟩ ∧
      dispatch o B ⟨.mha2, seed, src, n⟩ = ⟨mha2 o B seed n (src.toNat % 4), 0, 0, 0⟩ ∧
      dispatch o B ⟨.mh3_32, seed, src, n⟩ = ⟨mh3_32 o B seed n, 0, 0, 0⟩ ∧
      (∃ lo hi : Word, hi ++ lo = mh64a o B seed n ∧ dispatch o B ⟨.mh64a, seed, src, n⟩ = ⟨lo, hi, 0, 0⟩) ∧
      (∃ lo hi : Word, hi ++ lo = mh64b o B seed n ∧ dispatch o B ⟨.mh64b, seed, src, n⟩ = ⟨lo, hi, 0, 0⟩) ∧
      (∃ h1 h2 h3 h4 : Word, mh3_x86_128 o B seed n = ⟨h1, h2, h3, h4⟩ ∧
        dispatch o B ⟨.mh3_x86_128, seed, src, n⟩ = ⟨h1, h2, h3, h4⟩) ∧
      ∃ w0 w1 w2 w3 : Word, mh3_x64_128 o B seed n = ⟨w1 ++ w0, w3 ++ w2⟩ ∧
        dispatch o B ⟨.mh3_x64_128, seed, src, n⟩ = ⟨w0, w1, w2, w3⟩

/-- Determinism and independence of jobs (R806, R811, R212): two undisturbed jobs with the same code, seed and length, on
the same bytes and byte order, each with a readable range, end with the same report, whatever the two states hold
otherwise and wherever the bytes lie; only MHA2 also needs the same low two address bits. (Where a range is not readable,
the report is a bus error that depends on BUS_OK and JOB.src: CompletionReportsTheBusError.) -/
def Obligations.ResultDependsOnJobAndBytesOnly : Prop :=
  ∀ (s₁ s₂ : State) (j₁ j₂ : Job), s₁.phase = .busy j₁ → s₂.phase = .busy j₂ →
    s₁.disturbed = false → s₂.disturbed = false →
    j₁.code = j₂.code → j₁.seed = j₂.seed → j₁.n = j₂.n →
    (j₁.code = .mha2 → j₁.src.toNat % 4 = j₂.src.toNat % 4) →
    s₁.cfg.nativeOrder = s₂.cfg.nativeOrder →
    Readable s₁.cfg j₁.src j₁.n → Readable s₂.cfg j₂.src j₂.n →
    (∀ k, k < j₁.n.toNat → Memory.read s₁.mem (j₁.src.toNat + k) = Memory.read s₂.mem (j₂.src.toNat + k)) →
    s₁.engineStep.res = s₂.engineStep.res ∧ s₁.engineStep.done = s₂.engineStep.done ∧
      s₁.engineStep.err = s₂.engineStep.err ∧ s₁.engineStep.errcode = s₂.engineStep.errcode ∧
      s₁.engineStep.errAddr = s₂.engineStep.errAddr

/-- The engine's turn while IDLE is no step of the block (R800): only the turn passes. -/
def Obligations.EngineRestsWhileIdle : Prop :=
  ∀ (s t : State), EngineNext s t → s.phase = .idle → step s = .next t

/-- Progress (R1006): from every BUSY state whose host keeps to defined accesses, PHASE is IDLE after at most as many
steps as turns are scheduled and one more; where no reset is scheduled, the job has then completed (DONE = 1), and where
one is, it may have been abandoned (R1001). That the schedule bounds the steps is the model's form of fairness (log 1). -/
def Obligations.EveryAcceptedJobCompletes : Prop :=
  ∀ s : State, s.phase ≠ .idle → (∀ stmt ∈ s.host, HostStmt.wf s.cfg.regBase stmt = true) →
    ∃ (k : Nat) (t : State), k ≤ s.turns.length + 1 ∧ Host.Core.run Sys2Proof.core k s = .next t ∧ t.phase = .idle ∧
      (Turn.reset ∉ s.turns → t.done = true)

/-! ### Reset -/

/-- Reset (R1000, R1001), enabled in every state, a BUSY one included: the registers of the block at their reset values,
SEED, SRC and LEN at three draws, the running job abandoned without a completion, CAPS unchanged, irq 0. What lies
outside the block is untouched; that the draws are counted is the model's form (logs 6 and 16). -/
def Obligations.ResetClearsTheBlock : Prop :=
  ∀ s t : State, ResetNext s t → ∃ seed src len : Word,
    step s = .next
      { t with
        variant := 0
        ie := false
        phase := .idle
        done := false
        err := false
        errcode := 0
        seed := seed
        src := src
        len := len
        errAddr := 0
        res := ⟨0, 0, 0, 0⟩
        disturbed := false
        draws := s.draws + 3 }

/-- The state right after reset, in every build: CTRL, STATUS, ERRADDR and RES0 to RES3 read 0, irq is 0, PHASE is IDLE,
CAPS reads the build's constant. -/
def Obligations.StateAfterReset : Prop :=
  State.reset = State.afterReset Config.default ∧
    ∀ c : Config,
      (State.afterReset c).readReg .ctrl = 0 ∧ (State.afterReset c).readReg .status = 0 ∧
        (State.afterReset c).readReg .errAddr = 0 ∧ (State.afterReset c).readReg .res0 = 0 ∧
        (State.afterReset c).readReg .res1 = 0 ∧ (State.afterReset c).readReg .res2 = 0 ∧
        (State.afterReset c).readReg .res3 = 0 ∧ (State.afterReset c).irq = false ∧
        (State.afterReset c).phase = .idle ∧ (State.afterReset c).readReg .caps = Config.capsWord c

/-! ### Host accesses to the window -/

/-- A CTRL write is a command exactly when bit 8 of the word is 1; without it the write only updates VARIANT and IE, in
every phase (R301, R106). -/
def Obligations.CtrlWriteWithoutStartIsNoCommand : Prop :=
  (∀ w : Word, (∃ i, decode w = .ok i) ∨ (∃ v, decode w = .error (.reservedCode v)) ↔ w.getLsbD 8 = true) ∧
    ∀ (s t : State) (w : Word), HostNext s (.wr (Reg.access .ctrl s.cfg.regBase) w) t → w.getLsbD 8 = false →
      step s = .next { t with variant := w.extractLsb' 0 4, ie := w.getLsbD 9 }

/-- The acknowledge (R108): a STATUS write with bit 1 set while DONE = 1 clears DONE, ERR, ERRCODE and ERRADDR and
nothing else; every other STATUS write has no effect. -/
def Obligations.StatusWriteAcknowledges : Prop :=
  ∀ (s t : State) (w : Word), HostNext s (.wr (Reg.access .status s.cfg.regBase) w) t →
    (w.getLsbD 1 = true → s.done = true →
        step s = .next { t with done := false, err := false, errcode := 0, errAddr := 0 }) ∧
      (w.getLsbD 1 = false ∨ s.done = false → step s = .next t)

/-- Writes to SEED, SRC and LEN set all 32 bits in every phase and change nothing else, so not the running job (R109,
R110). -/
def Obligations.OperandWritesSetTheRegister : Prop :=
  ∀ (s t : State) (w : Word),
    (HostNext s (.wr (Reg.access .seed s.cfg.regBase) w) t → step s = .next { t with seed := w }) ∧
      (HostNext s (.wr (Reg.access .src s.cfg.regBase) w) t → step s = .next { t with src := w }) ∧
      (HostNext s (.wr (Reg.access .len s.cfg.regBase) w) t → step s = .next { t with len := w })

/-- Reserved offsets and bits, read-only registers, and reads (R115): reserved offsets read 0; writes to them and to
ERRADDR, RES0 to RES3 and CAPS change nothing; the reserved bits of CTRL and STATUS, and START, read 0 and their written
values do not matter; a read changes nothing but what the host has observed. -/
def Obligations.ReservedAndReadOnlyAreInert : Prop :=
  (∀ (s : State) (k : Fin 5), s.readReg (.reserved k) = 0) ∧
    (∀ (s t : State) (w : Word) (r : Reg),
      (r = .errAddr ∨ r = .res0 ∨ r = .res1 ∨ r = .res2 ∨ r = .res3 ∨ r = .caps ∨ ∃ k, r = .reserved k) →
        HostNext s (.wr (Reg.access r s.cfg.regBase) w) t → step s = .next t) ∧
    (∀ (s t : State) (r : Reg) (x : String), HostNext s (.rd (Reg.access r s.cfg.regBase) x) t →
      step s = .next { t with observed := s.observed ++ [(x, s.readReg r)] }) ∧
    (∀ (s : State) (i : Nat), (i ∈ [4, 5, 6, 7, 8] ∨ 10 ≤ i) → (s.readReg .ctrl).getLsbD i = false) ∧
    (∀ (s : State) (i : Nat), (i = 3 ∨ 8 ≤ i) → (s.readReg .status).getLsbD i = false) ∧
    (∀ (s : State) (w w' : Word), w &&& 0x0000030F#32 = w' &&& 0x0000030F#32 →
      s.writeReg .ctrl w = s.writeReg .ctrl w') ∧
    ∀ (s : State) (w w' : Word), w.getLsbD 1 = w'.getLsbD 1 → s.writeReg .status w = s.writeReg .status w'

/-- What reads of the registers return, field by field (R105 to R107, R109 to R111, R114, R118). -/
def Obligations.RegisterReadsShowTheFields : Prop :=
  ∀ s : State,
    ((s.readReg .ctrl).extractLsb' 0 4 = s.variant ∧ (s.readReg .ctrl).getLsbD 9 = s.ie) ∧
      ((s.readReg .status).getLsbD 0 = decide (s.phase ≠ .idle) ∧ (s.readReg .status).getLsbD 1 = s.done ∧
        (s.readReg .status).getLsbD 2 = s.err ∧ (s.readReg .status).extractLsb' 4 4 = s.errcode) ∧
      ((s.readReg .caps).extractLsb' 0 9 = s.cfg.enabled ∧
        (s.readReg .caps).getLsbD 16 = decide (s.cfg.nativeOrder = .be) ∧
        ∀ i, (9 ≤ i ∧ i ≤ 15 ∨ 17 ≤ i) → (s.readReg .caps).getLsbD i = false) ∧
      (s.readReg .seed = s.seed ∧ s.readReg .src = s.src ∧ s.readReg .len = s.len) ∧
      (s.readReg .errAddr = s.errAddr ∧ s.readReg .res0 = s.res.w0 ∧ s.readReg .res1 = s.res.w1 ∧
        s.readReg .res2 = s.res.w2 ∧ s.readReg .res3 = s.res.w3)

/-- An access inside the window that is not 32 bits wide, or not at a multiple of 4, is refused, for each kind of access
(R207, U3); a defined access is not. -/
def Obligations.UndefinedAccessIsRefused : Prop :=
  ∀ (s t : State) (a : Access), s.cfg.regBase ≤ a.addr → a.addr < s.cfg.regBase + 64 →
    (a.bytes ≠ 4 ∨ (a.addr - s.cfg.regBase) % 4 ≠ 0 →
        (∀ w, HostNext s (.wr a w) t → step s = .refused .undefinedAccess) ∧
          (∀ x, HostNext s (.rd a x) t → step s = .refused .undefinedAccess) ∧
          ∀ w, HostNext s (.poll a w) t → step s = .refused .undefinedAccess) ∧
      (a.bytes = 4 → (a.addr - s.cfg.regBase) % 4 = 0 →
        (∀ w, HostNext s (.wr a w) t → ∃ u, step s = .next u) ∧
          (∀ x, HostNext s (.rd a x) t → ∃ u, step s = .next u) ∧
          ∀ w, HostNext s (.poll a w) t → ∃ u, step s = .next u)

/-- POLL (R306): it reads its register again and again, changing nothing in the block, until the masked value is not 0,
and is then over. -/
def Obligations.PollRepeatsUntilTheMask : Prop :=
  ∀ (s t : State) (r : Reg) (mask : Word), HostNext s (.poll (Reg.access r s.cfg.regBase) mask) t →
    (s.readReg r &&& mask ≠ 0 → step s = .next t) ∧
      (s.readReg r &&& mask = 0 → step s = .next { t with host := s.host })

/-- A host store (R306, R200, R209): it puts its bytes at consecutive addresses and leaves every other address alone,
marks a running job whose range it touches, and changes nothing else. One that would run past address 2^32 - 1 faults;
that it then stores nothing is the model's choice (log 11). -/
def Obligations.HostStorePlacesItsBytes : Prop :=
  ∀ (s t : State) (addr : Word) (bytes : List Byte), HostNext s (.mem addr bytes) t → s.MemInv →
    (addr.toNat + bytes.length ≤ 2 ^ 32 →
        ∃ u, step s = .next u ∧
          (∀ k (h : k < bytes.length), Memory.read u.mem (addr.toNat + k) = bytes[k]) ∧
          (∀ a, a < addr.toNat ∨ addr.toNat + bytes.length ≤ a → Memory.read u.mem a = Memory.read s.mem a) ∧
          (u.disturbed = true ↔ s.disturbed = true ∨
            ∃ j k, s.phase = .busy j ∧ k < bytes.length ∧ j.src.toNat ≤ addr.toNat + k ∧
              addr.toNat + k < j.src.toNat + j.n.toNat) ∧
          { u with mem := t.mem, disturbed := t.disturbed } = t) ∧
      (2 ^ 32 < addr.toNat + bytes.length → step s = .fault .storePastInputSpace)

/-- The host's pseudo-instructions (R307, R306): with the model's default schedule (log 1), HASH, WAIT, RESULT and ACK take
an IDLE block, in eleven steps, through one whole job of any instruction and observe its result in RES0 to RES3; the
report is then acknowledged and the host's further statements are next. -/
def Obligations.PseudoInstructionsRunOneJob : Prop :=
  ∀ (i : Instr) (s : State) (seed src n : Word) (r0 r1 r2 r3 : String) (more : List HostStmt),
    s.phase = .idle → s.turns = [] →
    s.host =
      hashStmts s.cfg.regBase i seed src n ++ waitStmts s.cfg.regBase ++ resultStmts s.cfg.regBase r0 r1 r2 r3 ++
        ackStmts s.cfg.regBase ++ more →
    s.cfg.enabled.getLsbD i.variant.code.toNat = true → src.toNat + n.toNat ≤ 2 ^ 32 → Readable s.cfg src n →
    ∃ (t : State) (w : ResWords), Host.Core.run Sys2Proof.core 11 s = .next t ∧
      w = dispatch s.cfg.nativeOrder (inputBytes s.mem src.toNat n.toNat) ⟨i.variant, seed, src, n⟩ ∧
      t.observed = s.observed ++ [(r0, w.w0), (r1, w.w1), (r2, w.w2), (r3, w.w3)] ∧
      t.host = more ∧ t.turns = [] ∧ t.phase = .idle ∧ t.done = false ∧ t.err = false ∧ t.errcode = 0 ∧
      t.errAddr = 0 ∧ t.res = w ∧ t.seed = seed ∧ t.src = src ∧ t.len = n ∧ t.mem = s.mem ∧
      t.portReads = s.portReads ++ addressesFrom src.toNat n.toNat

/-! ### Invariants and rules of the whole machine -/

/-- Every step keeps the invariants of STATUS, ERRCODE and ERRADDR (R107, R118, R900). -/
def Obligations.StepKeepsStatusInvariant : Prop :=
  ∀ s t : State, s.StatusInv → step s = .next t → t.StatusInv

/-- Every step keeps the invariant of the running job: an active code and a range that does not wrap (R805, R201). -/
def Obligations.StepKeepsJobInvariant : Prop :=
  ∀ s t : State, s.JobInv → step s = .next t → t.JobInv

/-- Every step keeps the canonical form of the input space. -/
def Obligations.StepKeepsMemoryCanonical : Prop :=
  ∀ s t : State, s.MemInv → step s = .next t → t.MemInv

/-- The state right after reset is good, in every build. -/
def Obligations.ResetStateIsGood : Prop := State.reset.Inv ∧ ∀ c : Config, (State.afterReset c).Inv

/-- No step changes the build, so CAPS reads the same for ever, and no step but a store changes the input space: the
engine never writes memory (R114, R200). -/
def Obligations.BuildAndMemoryAreNotTheEnginesToChange : Prop :=
  ∀ s t : State, step s = .next t →
    t.cfg = s.cfg ∧ (t.mem ≠ s.mem → ∃ addr bytes u, HostNext s (.mem addr bytes) u)

/-- While a job runs, its snapshot, RES0 to RES3 and the report do not change, whatever the host writes (R803, R111,
R113), from every state that meets the invariants of STATUS (in which BUSY and DONE are never both 1). -/
def Obligations.RunningJobKeepsSnapshotAndResult : Prop :=
  ∀ (s t : State) (j j' : Job), s.StatusInv → step s = .next t → s.phase = .busy j → t.phase = .busy j' →
    j' = j ∧ t.res = s.res ∧ t.errAddr = s.errAddr ∧ t.done = s.done ∧ t.err = s.err ∧ t.errcode = s.errcode

/-- PHASE leaves BUSY only by the engine's completion step or by reset, and leaves IDLE only by a command: a host write to
CTRL of a word that decodes to an instruction the state accepts (R112, R801). -/
def Obligations.PhaseChangesOnlyByCommandCompletionOrReset : Prop :=
  ∀ s t : State, step s = .next t →
    (s.phase ≠ .idle → t.phase = .idle → (∃ u, EngineNext s u) ∨ ∃ u, ResetNext s u) ∧
      (s.phase = .idle → t.phase ≠ .idle →
        ∃ w i u, HostNext s (.wr (Reg.access .ctrl s.cfg.regBase) w) u ∧ decode w = .ok i ∧ s.Accepts i.variant)

/-- RES0 to RES3 change only at a completion, a reset or a rejection: the step is the engine's while BUSY, or reset, or a
command (a host write to CTRL with START = 1) issued while IDLE that is reported as an error with RES 0 (R111, R802). -/
def Obligations.ResultsChangeOnlyWhenAJobEnds : Prop :=
  ∀ s t : State, step s = .next t → t.res ≠ s.res →
    (∃ u, EngineNext s u ∧ s.phase ≠ .idle ∧ t.done = true) ∨ (∃ u, ResetNext s u) ∨
      ∃ w u, HostNext s (.wr (Reg.access .ctrl s.cfg.regBase) w) u ∧ w.getLsbD 8 = true ∧ s.phase = .idle ∧
        t.done = true ∧ t.err = true ∧ t.res = ⟨0, 0, 0, 0⟩

/-- SEED, SRC and LEN are stable: each changes only by a host write to that register, or at reset (R116, R109, R110). -/
def Obligations.OperandsChangeOnlyByWriteOrReset : Prop :=
  ∀ s t : State, step s = .next t → (∀ u, ¬ ResetNext s u) →
    (t.seed ≠ s.seed → ∃ a w u, HostNext s (.wr a w) u ∧ a.addr = s.cfg.regBase + 0x08 ∧ t.seed = w) ∧
      (t.src ≠ s.src → ∃ a w u, HostNext s (.wr a w) u ∧ a.addr = s.cfg.regBase + 0x0C ∧ t.src = w) ∧
      (t.len ≠ s.len → ∃ a w u, HostNext s (.wr a w) u ∧ a.addr = s.cfg.regBase + 0x10 ∧ t.len = w)

/-- The input port reads nothing but a running job's range (R203): a step that reads is the engine's, while BUSY, and it
reads a first part of the range, in ascending order and each address once. -/
def Obligations.PortReadsOnlyTheRunningJobsRange : Prop :=
  ∀ s t : State, step s = .next t → t.portReads ≠ s.portReads →
    ∃ u j k, EngineNext s u ∧ s.phase = .busy j ∧ k ≤ j.n.toNat ∧
      t.portReads = s.portReads ++ addressesFrom j.src.toNat k

/-- irq (R119, R905): it equals DONE and IE as the registers read them, in every state; it is low after an acceptance, an
acknowledge of a report and a reset, and follows IE after a completion and a rejection. -/
def Obligations.IrqFollowsDoneAndIe : Prop :=
  (∀ s : State, s.irq = ((s.readReg .status).getLsbD 1 && (s.readReg .ctrl).getLsbD 9)) ∧
    (∀ (s : State) (j : Job), s.phase = .busy j → s.engineStep.irq = s.ie) ∧
    (∀ (i : Instr) (s t : State), exec i s = .next t → s.phase = .idle →
      (t.phase ≠ .idle → t.irq = false) ∧ (t.phase = .idle → t.irq = i.ie)) ∧
    ∀ (s t u : State), step s = .next u →
      (ResetNext s t → u.irq = false) ∧
        (∀ w, HostNext s (.wr (Reg.access .status s.cfg.regBase) w) t → w.getLsbD 1 = true → u.irq = false)

/-! ### The datapath -/

/-- The rotates of R405 are rotations, for every count inside the width. -/
def Obligations.RotatesAreRotations : Prop :=
  (∀ (x : Word) (r : Nat), 0 < r → r < 32 → rotl32 x r = x.rotateLeft r) ∧
    ∀ (x : DWord) (r : Nat), 0 < r → r < 64 → rotl64 x r = x.rotateLeft r

/-- The assembly rules agree (R400, R401, R402): the four-byte le word is the native word under LE; a native 64-bit word
is two native 32-bit words, the later one high under LE and low under BE; byte j of le is byte j of the input. -/
def Obligations.WordAssemblyAgrees : Prop :=
  ∀ (B : List Byte) (i : Nat),
    le32 B i 4 = rdn32 .le B i ∧
      rdn64 .le B i = rdn32 .le B (i + 4) ++ rdn32 .le B i ∧
      rdn64 .be B i = rdn32 .be B i ++ rdn32 .be B (i + 4) ∧
      ∀ c j, c ≤ 8 → j < 8 → (le B i c).extractLsb' (8 * j) 8 = if j < c then byteAt B (i + j) else 0

/-- The masked tail equals le (R404): masking the padded NATIVE_ORDER word gives exactly the little-endian tail, under LE,
under BE with the reversal first, and under BE with the mask first; no byte past the tail matters. -/
def Obligations.MaskedTailEqualsLittleEndianTail : Prop :=
  ∀ (o : NativeOrder) (B : List Byte) (p c : Nat), c ≤ 8 →
    maskedTail o B p c = le B p c ∧ maskedTailHigh B p c = le B p c ∧
      maskedTail o (B.take (p + c)) p c = maskedTail o B p c ∧
      maskedTailHigh (B.take (p + c)) p c = maskedTailHigh B p c

/-- Multiplying by an odd constant is a bijection, every multiply constant of R407 is odd (R406), and both avalanche
finalizers are bijections that map 0 to 0 (R416, R417). -/
def Obligations.MixersAreBijections : Prop :=
  (∀ c : Word, c.getLsbD 0 = true → Function.Bijective fun x : Word => x * c) ∧
    (∀ c : DWord, c.getLsbD 0 = true → Function.Bijective fun x : DWord => x * c) ∧
    (∀ c ∈ [MH2_M, 0xCC9E2D51, 0x1B873593, 5, 0x85EBCA6B, 0xC2B2AE35, 0x239B961B, 0xAB0E9789, 0x38B34AE5, 0xA1E38B93],
      c.getLsbD 0 = true) ∧
    (∀ c ∈ [MH64A_M, 0x87C37B91114253D5, 0x4CF5AD432745937F, 5, 0xFF51AFD7ED558CCD, 0xC4CEB9FE1A85EC53],
      c.getLsbD 0 = true) ∧
    Function.Bijective fmix32 ∧ fmix32 0 = 0 ∧ Function.Bijective fmix64 ∧ fmix64 0 = 0

/-- MHN2 does not depend on NATIVE_ORDER: a job of code 2 ends in the same state under both, but for the build's own byte
order; MH2 may differ, and does on "test" (R504). -/
def Obligations.NeutralHashIgnoresNativeOrder : Prop :=
  (∀ (s : State) (j : Job) (o : NativeOrder), s.phase = .busy j → j.code = .mhn2 →
      ({ s with cfg := { s.cfg with nativeOrder := o } } : State).engineStep =
        { s.engineStep with cfg := { s.cfg with nativeOrder := o } }) ∧
    mh2 .le [0x74, 0x65, 0x73, 0x74] 0 4 ≠ mh2 .be [0x74, 0x65, 0x73, 0x74] 0 4

/-- Under NATIVE_ORDER = LE, MHN2 equals MH2 on every input and seed (R503); for n < 4 it does so under both orders. -/
def Obligations.NeutralEqualsClassicUnderLE : Prop :=
  ∀ (B : List Byte) (seed n : Word),
    mhn2 B seed n = mh2 .le B seed n ∧ (n.toNat < 4 → ∀ o, mhn2 B seed n = mh2 o B seed n)

/-- Under NATIVE_ORDER = LE, MHA2 equals MH2 on every input, seed and alignment; under either order they can differ only
when the input is misaligned and has 4 bytes or more; on "hello" at a = 1 and 2, MHA2 under BE is MH2 under LE (R506). -/
def Obligations.AlignedEqualsClassicUnderLE : Prop :=
  (∀ (B : List Byte) (seed n : Word) (a : Nat), a < 4 →
    mha2 .le B seed n a = mh2 .le B seed n ∧
      ∀ o, mha2 o B seed n a ≠ mh2 o B seed n → a ≠ 0 ∧ 4 ≤ n.toNat) ∧
    (∀ a ∈ [1, 2], mha2 .be [0x68, 0x65, 0x6C, 0x6C, 0x6F] 0 5 a = 0xE56129CB) ∧
    mh2 .le [0x68, 0x65, 0x6C, 0x6C, 0x6F] 0 5 = 0xE56129CB ∧ mh2 .be [0x68, 0x65, 0x6C, 0x6C, 0x6F] 0 5 = 0x64EAF1FC

/-- An input without a full native block gives the same result under both byte orders (R210, R211): below 4, 8 or 16
bytes, by variant; MHN2 always. -/
def Obligations.OrderMattersOnlyWithAFullBlock : Prop :=
  ∀ (B : List Byte) (j : Job),
    (j.n.toNat < 4 ∨ j.code = .mhn2 ∨ (j.code = .mh64a ∧ j.n.toNat < 8) ∨
        ((j.code = .mh3_x86_128 ∨ j.code = .mh3_x64_128) ∧ j.n.toNat < 16)) →
    dispatch .le B j = dispatch .be B j

/-- No variant reads past the input (R203, R404): bytes after the n bytes of the job change no result. -/
def Obligations.NoVariantReadsPastTheInput : Prop :=
  ∀ (o : NativeOrder) (B junk : List Byte) (j : Job), B.length = j.n.toNat →
    dispatch o (B ++ junk) j = dispatch o B j

/-- The empty input (R409, R501 to R503, R505, R601, R602, R701 to R703): every variant is its finalizer on its seeding,
and gives 0 for seed 0. -/
def Obligations.EmptyInputValues : Prop :=
  (∀ (o : NativeOrder) (seed : Word),
      mh2 o [] seed 0 = fin2 seed ∧ mh2a o [] seed 0 = fin2 (mix2 (mix2 seed 0) 0) ∧ mhn2 [] seed 0 = fin2 seed ∧
        (∀ a, mha2 o [] seed 0 a = fin2 seed) ∧ mh3_32 o [] seed 0 = fmix32 seed ∧
        mh64a o [] seed 0 = fin64a (seed.setWidth 64) ∧ mh64b o [] seed 0 = fin64b seed 0 ∧
        mh3_x86_128 o [] seed 0 = x86_128Fin ⟨seed, seed, seed, seed⟩ 0 ∧
        mh3_x64_128 o [] seed 0 = x64_128Fin ⟨seed.setWidth 64, seed.setWidth 64⟩ 0) ∧
    ∀ (o : NativeOrder) (v : Variant) (src : Word), dispatch o [] ⟨v, 0, src, 0⟩ = ⟨0, 0, 0, 0⟩

/-- The short-input lanes of MH3_X86_128 (R702): with at most 8 bytes RES2 = RES3, and with at most 4 bytes
RES1 = RES2 = RES3. -/
def Obligations.ShortInputLanesCoincide : Prop :=
  ∀ (o : NativeOrder) (B : List Byte) (seed src n : Word),
    (n.toNat ≤ 8 →
        (dispatch o B ⟨.mh3_x86_128, seed, src, n⟩).w2 = (dispatch o B ⟨.mh3_x86_128, seed, src, n⟩).w3) ∧
      (n.toNat ≤ 4 →
        (dispatch o B ⟨.mh3_x86_128, seed, src, n⟩).w1 = (dispatch o B ⟨.mh3_x86_128, seed, src, n⟩).w2)

/-- One full block and a tail, written out from the rules for every variant (R500 to R505, R601, R602, R701 to R703):
MH2, MH2A, MHN2 and MH3_32 on 5 bytes; MHA2 on its misaligned path, once through each tail branch (a = 1 with 8 bytes,
a = 3 with 7); MH64A on 9 bytes; MH64B on 13, its half block included; MH3_X86_128 on 29 and MH3_X64_128 on 25, so that
every lane has a tail. The mixers of MH64A and MurmurHash3 and both 128-bit finalizations are spelled out. -/
def Obligations.OneBlockAndATail : Prop :=
  (∀ (o : NativeOrder) (b0 b1 b2 b3 b4 : Byte) (seed : Word),
    mh2 o [b0, b1, b2, b3, b4] seed 5 =
        fin2 ((mix2 (seed ^^^ 5) (rdn32 o [b0, b1, b2, b3] 0) ^^^ b4.setWidth 32) * MH2_M) ∧
      mh2a o [b0, b1, b2, b3, b4] seed 5 =
        fin2 (mix2 (mix2 (mix2 seed (rdn32 o [b0, b1, b2, b3] 0)) (b4.setWidth 32)) 5) ∧
      mhn2 [b0, b1, b2, b3, b4] seed 5 =
        fin2 ((mix2 (seed ^^^ 5) (rdn32 .le [b0, b1, b2, b3] 0) ^^^ b4.setWidth 32) * MH2_M) ∧
      mh3_32 o [b0, b1, b2, b3, b4] seed 5 =
        fmix32 ((rotl32 (seed ^^^ kmix32 (rdn32 o [b0, b1, b2, b3] 0) 0xCC9E2D51 15 0x1B873593) 13 * 5 + 0xE6546B64) ^^^
          kmix32 (b4.setWidth 32) 0xCC9E2D51 15 0x1B873593 ^^^ 5)) ∧
  (∀ (o : NativeOrder) (B : List Byte) (seed : Word),
    mha2 o B seed 8 1 =
        fin2 (mix2 (mix2 (seed ^^^ 8) ((le32 B 0 3 <<< 8) >>> 8 ||| rdn32 o B 3 <<< 24))
          (rdn32 o B 3 >>> 8 ||| (byteAt B 7).setWidth 32 <<< 24)) ∧
      mha2 o B seed 7 3 =
        fin2 ((mix2 (seed ^^^ 7) ((le32 B 0 1 <<< 24) >>> 24 ||| rdn32 o B 1 <<< 8) ^^^
          (rdn32 o B 1 >>> 24 ||| le32 B 5 2 <<< 8)) * MH2_M)) ∧
  (∀ (o : NativeOrder) (B : List Byte) (seed : Word),
    let M : DWord := 0xC6A4A7935BD1E995
    let k := rdn64 o B 0 * M
    let h := ((seed.setWidth 64 ^^^ 9 * M) ^^^ (k ^^^ k >>> 47) * M) * M
    mh64a o B seed 9 = fin64a ((h ^^^ (byteAt B 8).setWidth 64) * M)) ∧
  (∀ (o : NativeOrder) (B : List Byte) (seed : Word),
    mh64b o B seed 13 =
      fin64b (mix2 (mix2 (seed ^^^ 13) (rdn32 o B 0)) (rdn32 o B 8))
        ((mix2 0 (rdn32 o B 4) ^^^ (byteAt B 12).setWidth 32) * MH2_M)) ∧
  (∀ (o : NativeOrder) (B : List Byte) (seed : Word),
    let h1 := (rotl32 (seed ^^^ kmix32 (rdn32 o B 0) 0x239B961B 15 0xAB0E9789) 19 + seed) * 5 + 0x561CCD1B
    let h2 := (rotl32 (seed ^^^ kmix32 (rdn32 o B 4) 0xAB0E9789 16 0x38B34AE5) 17 + seed) * 5 + 0x0BCAA747
    let h3 := (rotl32 (seed ^^^ kmix32 (rdn32 o B 8) 0x38B34AE5 17 0xA1E38B93) 15 + seed) * 5 + 0x96CD1C35
    let h4 := (rotl32 (seed ^^^ kmix32 (rdn32 o B 12) 0xA1E38B93 18 0x239B961B) 13 + h1) * 5 + 0x32AC3B17
    let x1 := h1 ^^^ kmix32 (le32 B 16 4) 0x239B961B 15 0xAB0E9789 ^^^ 29
    let x2 := h2 ^^^ kmix32 (le32 B 20 4) 0xAB0E9789 16 0x38B34AE5 ^^^ 29
    let x3 := h3 ^^^ kmix32 (le32 B 24 4) 0x38B34AE5 17 0xA1E38B93 ^^^ 29
    let x4 := h4 ^^^ kmix32 ((byteAt B 28).setWidth 32) 0xA1E38B93 18 0x239B961B ^^^ 29
    let a := x1 + x2 + x3 + x4
    let f1 := fmix32 a
    let f2 := fmix32 (x2 + a)
    let f3 := fmix32 (x3 + a)
    let f4 := fmix32 (x4 + a)
    let r := f1 + f2 + f3 + f4
    mh3_x86_128 o B seed 29 = ⟨r, f2 + r, f3 + r, f4 + r⟩) ∧
  ∀ (o : NativeOrder) (B : List Byte) (seed : Word),
    let s := seed.setWidth 64
    let h1 := (rotl64 (s ^^^ kmix64 (rdn64 o B 0) 0x87C37B91114253D5 31 0x4CF5AD432745937F) 27 + s) * 5 + 0x52DCE729
    let h2 := (rotl64 (s ^^^ kmix64 (rdn64 o B 8) 0x4CF5AD432745937F 33 0x87C37B91114253D5) 31 + h1) * 5 + 0x38495AB5
    let x1 := h1 ^^^ kmix64 (le B 16 8) 0x87C37B91114253D5 31 0x4CF5AD432745937F ^^^ 25
    let x2 := h2 ^^^ kmix64 ((byteAt B 24).setWidth 64) 0x4CF5AD432745937F 33 0x87C37B91114253D5 ^^^ 25
    let a := x1 + x2
    let f1 := fmix64 a
    let f2 := fmix64 (x2 + a)
    mh3_x64_128 o B seed 25 = ⟨f1 + f2, f2 + (f1 + f2)⟩

/-- The variants are different functions on "hello" with seed 0, with the values the rules give, and agree on the empty
input with seed 0; their codes stay distinct (R603). -/
def Obligations.Hash64VariantsDiffer : Prop :=
  mh64a .le [0x68, 0x65, 0x6C, 0x6C, 0x6F] 0 5 = 0x1E68D17C457BF117#64 ∧
    mh64b .le [0x68, 0x65, 0x6C, 0x6C, 0x6F] 0 5 = 0xF510DB152543FD7F#64 ∧
    (0x1E68D17C457BF117#64 ≠ 0xF510DB152543FD7F#64) ∧ mh64a .le [] 0 0 = 0 ∧ mh64b .le [] 0 0 = 0 ∧
    Variant.code .mh64a ≠ Variant.code .mh64b

/-- The mixers and finalizers, each as one expression with the rules' constants in it (R405, R407 to R417). -/
def Obligations.MixersAndFinalizersFollowTheRules : Prop :=
  (∀ h k : Word,
    mix2 h k = h * 0x5BD1E995 ^^^ (k * 0x5BD1E995 ^^^ (k * 0x5BD1E995) >>> 24) * 0x5BD1E995 ∧
      fin2 h = ((h ^^^ h >>> 13) * 0x5BD1E995) ^^^ ((h ^^^ h >>> 13) * 0x5BD1E995) >>> 15) ∧
  (∀ (B : List Byte) (h : Word) (p c : Nat),
    tail2 B h p 0 = h ∧ (0 < c → tail2 B h p c = (h ^^^ le32 B p c) * 0x5BD1E995)) ∧
  (∀ h k : DWord,
    mix64a h k =
        (h ^^^ (k * 0xC6A4A7935BD1E995 ^^^ (k * 0xC6A4A7935BD1E995) >>> 47) * 0xC6A4A7935BD1E995) *
          0xC6A4A7935BD1E995 ∧
      fin64a h = ((h ^^^ h >>> 47) * 0xC6A4A7935BD1E995) ^^^ ((h ^^^ h >>> 47) * 0xC6A4A7935BD1E995) >>> 47) ∧
  (∀ (B : List Byte) (h : DWord) (p c : Nat),
    tail64a B h p 0 = h ∧ (0 < c → tail64a B h p c = (h ^^^ le B p c) * 0xC6A4A7935BD1E995)) ∧
  (∀ h1 h2 : Word,
    let a := (h1 ^^^ h2 >>> 18) * 0x5BD1E995
    let b := (h2 ^^^ a >>> 22) * 0x5BD1E995
    let c := (a ^^^ b >>> 17) * 0x5BD1E995
    let d := (b ^^^ c >>> 19) * 0x5BD1E995
    fin64b h1 h2 = c ++ d) ∧
  (∀ (k ca cb : Word) (r : Nat), 0 < r → r < 32 → kmix32 k ca r cb = (k * ca).rotateLeft r * cb) ∧
  (∀ (k ca cb : DWord) (r : Nat), 0 < r → r < 64 → kmix64 k ca r cb = (k * ca).rotateLeft r * cb) ∧
  (∀ h : Word,
    let a := (h ^^^ h >>> 16) * 0x85EBCA6B
    let b := (a ^^^ a >>> 13) * 0xC2B2AE35
    fmix32 h = b ^^^ b >>> 16) ∧
  ∀ h : DWord,
    let a := (h ^^^ h >>> 33) * 0xFF51AFD7ED558CCD
    let b := (a ^^^ a >>> 33) * 0xC4CEB9FE1A85EC53
    fmix64 h = b ^^^ b >>> 33
end

