-- ==== Sys2Proof/Laws/Engine.lean ====
section
/-! SUPPORT. The data phase and the engine's helpers, one equation each. -/

namespace Sys2Proof.Machine

@[simp] theorem dataPhase_zero (c : Config) (m : Memory) (a : Nat) : dataPhase c m a 0 = ⟨[], .ok []⟩ := rfl

/-- The first address answers: its byte and its read come before the rest. -/
theorem dataPhase_succ_ok {c : Config} {m : Memory} {a : Nat} (n : Nat) (h : Config.busOk c a = true) :
    dataPhase c m a (n + 1) =
      ⟨BitVec.ofNat 32 a :: (dataPhase c m (a + 1) n).reads,
        (dataPhase c m (a + 1) n).outcome.cons (Memory.read m a)⟩ := by
  simp [dataPhase, h]

/-- The first address does not answer: the data phase ends there. -/
theorem dataPhase_succ_fault {c : Config} {m : Memory} {a : Nat} (n : Nat) (h : Config.busOk c a = false) :
    dataPhase c m a (n + 1) = ⟨[BitVec.ofNat 32 a], .fault a⟩ := by
  simp [dataPhase, h]

@[simp] theorem DataOutcome.cons_ok (b : Byte) (B : List Byte) : (DataOutcome.ok B).cons b = .ok (b :: B) := rfl

@[simp] theorem DataOutcome.cons_fault (b : Byte) (fa : Nat) : (DataOutcome.fault fa).cons b = .fault fa := rfl

@[simp] theorem inputBytes_zero (m : Memory) (a : Nat) : inputBytes m a 0 = [] := rfl

theorem inputBytes_succ (m : Memory) (a n : Nat) :
    inputBytes m a (n + 1) = Memory.read m a :: inputBytes m (a + 1) n := by
  simp [inputBytes, List.range_succ_eq_map, Nat.add_assoc, Nat.add_comm 1, Function.comp_def]

@[simp] theorem addressesFrom_zero (a : Nat) : addressesFrom a 0 = [] := rfl

theorem addressesFrom_succ (a n : Nat) :
    addressesFrom a (n + 1) = BitVec.ofNat 32 a :: addressesFrom (a + 1) n := by
  simp only [addressesFrom, List.range_succ_eq_map, List.map_cons, List.map_map, Nat.add_zero, List.cons.injEq, true_and]
  refine List.map_congr_left fun k _ => ?_
  simp only [Function.comp, Nat.succ_eq_add_one]
  congr 1
  omega

@[simp] theorem State.resOr_undisturbed {s : State} (h : s.disturbed = false) (w : ResWords) : s.resOr w = w := by
  simp [State.resOr, h]

@[simp] theorem State.useDraws_undisturbed {s : State} (h : s.disturbed = false) : s.useDraws = s := by
  simp [State.useDraws, h]

/-- The low two bits of an address are its remainder by 4. -/
theorem srcLow_toNat (w : Word) : (w.extractLsb' 0 2).toNat = w.toNat % 4 := by
  simp [BitVec.extractLsb'_toNat]

/-- A 64-bit word is its high half on its low half. -/
theorem halves_append (h : DWord) : (h.extractLsb' 32 32 ++ h.extractLsb' 0 32 : DWord) = h := by
  apply BitVec.eq_of_getLsbD_eq
  intro k hk
  rw [BitVec.getLsbD_append]
  split
  · rename_i h1
    simp [h1]
  · have e : 32 + (k - 32) = k := by omega
    have h2 : k - 32 < 32 := by omega
    simp [e, h2]

end Sys2Proof.Machine
end

