-- ==== Sys2Proof/Laws/State.lean ====
section
/-! SUPPORT. One lemma per field per state update, so that no later proof unfolds a record update. -/

namespace Sys2Proof.Machine

/-! ### setCtrl -/

@[simp] theorem State.setCtrl_cfg (v : BitVec 4) (b : Bool) (s : State) : (s.setCtrl v b).cfg = s.cfg := rfl

@[simp] theorem State.setCtrl_variant (v : BitVec 4) (b : Bool) (s : State) : (s.setCtrl v b).variant = v := rfl

@[simp] theorem State.setCtrl_ie (v : BitVec 4) (b : Bool) (s : State) : (s.setCtrl v b).ie = b := rfl

@[simp] theorem State.setCtrl_phase (v : BitVec 4) (b : Bool) (s : State) : (s.setCtrl v b).phase = s.phase := rfl

@[simp] theorem State.setCtrl_done (v : BitVec 4) (b : Bool) (s : State) : (s.setCtrl v b).done = s.done := rfl

@[simp] theorem State.setCtrl_err (v : BitVec 4) (b : Bool) (s : State) : (s.setCtrl v b).err = s.err := rfl

@[simp] theorem State.setCtrl_errcode (v : BitVec 4) (b : Bool) (s : State) : (s.setCtrl v b).errcode = s.errcode := rfl

@[simp] theorem State.setCtrl_seed (v : BitVec 4) (b : Bool) (s : State) : (s.setCtrl v b).seed = s.seed := rfl

@[simp] theorem State.setCtrl_src (v : BitVec 4) (b : Bool) (s : State) : (s.setCtrl v b).src = s.src := rfl

@[simp] theorem State.setCtrl_len (v : BitVec 4) (b : Bool) (s : State) : (s.setCtrl v b).len = s.len := rfl

@[simp] theorem State.setCtrl_errAddr (v : BitVec 4) (b : Bool) (s : State) : (s.setCtrl v b).errAddr = s.errAddr := rfl

@[simp] theorem State.setCtrl_res (v : BitVec 4) (b : Bool) (s : State) : (s.setCtrl v b).res = s.res := rfl

@[simp] theorem State.setCtrl_mem (v : BitVec 4) (b : Bool) (s : State) : (s.setCtrl v b).mem = s.mem := rfl

@[simp] theorem State.setCtrl_portReads (v : BitVec 4) (b : Bool) (s : State) : (s.setCtrl v b).portReads = s.portReads := rfl

@[simp] theorem State.setCtrl_disturbed (v : BitVec 4) (b : Bool) (s : State) : (s.setCtrl v b).disturbed = s.disturbed := rfl

@[simp] theorem State.setCtrl_draws (v : BitVec 4) (b : Bool) (s : State) : (s.setCtrl v b).draws = s.draws := rfl

@[simp] theorem State.setCtrl_host (v : BitVec 4) (b : Bool) (s : State) : (s.setCtrl v b).host = s.host := rfl

@[simp] theorem State.setCtrl_observed (v : BitVec 4) (b : Bool) (s : State) : (s.setCtrl v b).observed = s.observed := rfl

@[simp] theorem State.setCtrl_turns (v : BitVec 4) (b : Bool) (s : State) : (s.setCtrl v b).turns = s.turns := rfl

/-! ### endWithError -/

@[simp] theorem State.endWithError_cfg (e : BitVec 4) (a : Word) (r : ResWords) (s : State) : (s.endWithError e a r).cfg = s.cfg := rfl

@[simp] theorem State.endWithError_variant (e : BitVec 4) (a : Word) (r : ResWords) (s : State) : (s.endWithError e a r).variant = s.variant := rfl

@[simp] theorem State.endWithError_ie (e : BitVec 4) (a : Word) (r : ResWords) (s : State) : (s.endWithError e a r).ie = s.ie := rfl

@[simp] theorem State.endWithError_phase (e : BitVec 4) (a : Word) (r : ResWords) (s : State) : (s.endWithError e a r).phase = .idle := rfl

@[simp] theorem State.endWithError_done (e : BitVec 4) (a : Word) (r : ResWords) (s : State) : (s.endWithError e a r).done = true := rfl

@[simp] theorem State.endWithError_err (e : BitVec 4) (a : Word) (r : ResWords) (s : State) : (s.endWithError e a r).err = true := rfl

@[simp] theorem State.endWithError_errcode (e : BitVec 4) (a : Word) (r : ResWords) (s : State) : (s.endWithError e a r).errcode = e := rfl

@[simp] theorem State.endWithError_seed (e : BitVec 4) (a : Word) (r : ResWords) (s : State) : (s.endWithError e a r).seed = s.seed := rfl

@[simp] theorem State.endWithError_src (e : BitVec 4) (a : Word) (r : ResWords) (s : State) : (s.endWithError e a r).src = s.src := rfl

@[simp] theorem State.endWithError_len (e : BitVec 4) (a : Word) (r : ResWords) (s : State) : (s.endWithError e a r).len = s.len := rfl

@[simp] theorem State.endWithError_errAddr (e : BitVec 4) (a : Word) (r : ResWords) (s : State) : (s.endWithError e a r).errAddr = a := rfl

@[simp] theorem State.endWithError_res (e : BitVec 4) (a : Word) (r : ResWords) (s : State) : (s.endWithError e a r).res = r := rfl

@[simp] theorem State.endWithError_mem (e : BitVec 4) (a : Word) (r : ResWords) (s : State) : (s.endWithError e a r).mem = s.mem := rfl

@[simp] theorem State.endWithError_portReads (e : BitVec 4) (a : Word) (r : ResWords) (s : State) : (s.endWithError e a r).portReads = s.portReads := rfl

@[simp] theorem State.endWithError_disturbed (e : BitVec 4) (a : Word) (r : ResWords) (s : State) : (s.endWithError e a r).disturbed = s.disturbed := rfl

@[simp] theorem State.endWithError_draws (e : BitVec 4) (a : Word) (r : ResWords) (s : State) : (s.endWithError e a r).draws = s.draws := rfl

@[simp] theorem State.endWithError_host (e : BitVec 4) (a : Word) (r : ResWords) (s : State) : (s.endWithError e a r).host = s.host := rfl

@[simp] theorem State.endWithError_observed (e : BitVec 4) (a : Word) (r : ResWords) (s : State) : (s.endWithError e a r).observed = s.observed := rfl

@[simp] theorem State.endWithError_turns (e : BitVec 4) (a : Word) (r : ResWords) (s : State) : (s.endWithError e a r).turns = s.turns := rfl

/-! ### endWithResult -/

@[simp] theorem State.endWithResult_cfg (r : ResWords) (s : State) : (s.endWithResult r).cfg = s.cfg := rfl

@[simp] theorem State.endWithResult_variant (r : ResWords) (s : State) : (s.endWithResult r).variant = s.variant := rfl

@[simp] theorem State.endWithResult_ie (r : ResWords) (s : State) : (s.endWithResult r).ie = s.ie := rfl

@[simp] theorem State.endWithResult_phase (r : ResWords) (s : State) : (s.endWithResult r).phase = .idle := rfl

@[simp] theorem State.endWithResult_done (r : ResWords) (s : State) : (s.endWithResult r).done = true := rfl

@[simp] theorem State.endWithResult_err (r : ResWords) (s : State) : (s.endWithResult r).err = false := rfl

@[simp] theorem State.endWithResult_errcode (r : ResWords) (s : State) : (s.endWithResult r).errcode = 0 := rfl

@[simp] theorem State.endWithResult_seed (r : ResWords) (s : State) : (s.endWithResult r).seed = s.seed := rfl

@[simp] theorem State.endWithResult_src (r : ResWords) (s : State) : (s.endWithResult r).src = s.src := rfl

@[simp] theorem State.endWithResult_len (r : ResWords) (s : State) : (s.endWithResult r).len = s.len := rfl

@[simp] theorem State.endWithResult_errAddr (r : ResWords) (s : State) : (s.endWithResult r).errAddr = 0 := rfl

@[simp] theorem State.endWithResult_res (r : ResWords) (s : State) : (s.endWithResult r).res = r := rfl

@[simp] theorem State.endWithResult_mem (r : ResWords) (s : State) : (s.endWithResult r).mem = s.mem := rfl

@[simp] theorem State.endWithResult_portReads (r : ResWords) (s : State) : (s.endWithResult r).portReads = s.portReads := rfl

@[simp] theorem State.endWithResult_disturbed (r : ResWords) (s : State) : (s.endWithResult r).disturbed = s.disturbed := rfl

@[simp] theorem State.endWithResult_draws (r : ResWords) (s : State) : (s.endWithResult r).draws = s.draws := rfl

@[simp] theorem State.endWithResult_host (r : ResWords) (s : State) : (s.endWithResult r).host = s.host := rfl

@[simp] theorem State.endWithResult_observed (r : ResWords) (s : State) : (s.endWithResult r).observed = s.observed := rfl

@[simp] theorem State.endWithResult_turns (r : ResWords) (s : State) : (s.endWithResult r).turns = s.turns := rfl

/-! ### reject -/

@[simp] theorem State.reject_cfg (e : BitVec 4) (s : State) : (s.reject e).cfg = s.cfg := rfl

@[simp] theorem State.reject_variant (e : BitVec 4) (s : State) : (s.reject e).variant = s.variant := rfl

@[simp] theorem State.reject_ie (e : BitVec 4) (s : State) : (s.reject e).ie = s.ie := rfl

@[simp] theorem State.reject_phase (e : BitVec 4) (s : State) : (s.reject e).phase = .idle := rfl

@[simp] theorem State.reject_done (e : BitVec 4) (s : State) : (s.reject e).done = true := rfl

@[simp] theorem State.reject_err (e : BitVec 4) (s : State) : (s.reject e).err = true := rfl

@[simp] theorem State.reject_errcode (e : BitVec 4) (s : State) : (s.reject e).errcode = e := rfl

@[simp] theorem State.reject_seed (e : BitVec 4) (s : State) : (s.reject e).seed = s.seed := rfl

@[simp] theorem State.reject_src (e : BitVec 4) (s : State) : (s.reject e).src = s.src := rfl

@[simp] theorem State.reject_len (e : BitVec 4) (s : State) : (s.reject e).len = s.len := rfl

@[simp] theorem State.reject_errAddr (e : BitVec 4) (s : State) : (s.reject e).errAddr = 0 := rfl

@[simp] theorem State.reject_res (e : BitVec 4) (s : State) : (s.reject e).res = .zero := rfl

@[simp] theorem State.reject_mem (e : BitVec 4) (s : State) : (s.reject e).mem = s.mem := rfl

@[simp] theorem State.reject_portReads (e : BitVec 4) (s : State) : (s.reject e).portReads = s.portReads := rfl

@[simp] theorem State.reject_disturbed (e : BitVec 4) (s : State) : (s.reject e).disturbed = s.disturbed := rfl

@[simp] theorem State.reject_draws (e : BitVec 4) (s : State) : (s.reject e).draws = s.draws := rfl

@[simp] theorem State.reject_host (e : BitVec 4) (s : State) : (s.reject e).host = s.host := rfl

@[simp] theorem State.reject_observed (e : BitVec 4) (s : State) : (s.reject e).observed = s.observed := rfl

@[simp] theorem State.reject_turns (e : BitVec 4) (s : State) : (s.reject e).turns = s.turns := rfl

/-! ### accept -/

@[simp] theorem State.accept_cfg (v : Variant) (s : State) : (s.accept v).cfg = s.cfg := rfl

@[simp] theorem State.accept_variant (v : Variant) (s : State) : (s.accept v).variant = s.variant := rfl

@[simp] theorem State.accept_ie (v : Variant) (s : State) : (s.accept v).ie = s.ie := rfl

@[simp] theorem State.accept_phase (v : Variant) (s : State) : (s.accept v).phase = .busy (s.snapshot v) := rfl

@[simp] theorem State.accept_done (v : Variant) (s : State) : (s.accept v).done = false := rfl

@[simp] theorem State.accept_err (v : Variant) (s : State) : (s.accept v).err = false := rfl

@[simp] theorem State.accept_errcode (v : Variant) (s : State) : (s.accept v).errcode = 0 := rfl

@[simp] theorem State.accept_seed (v : Variant) (s : State) : (s.accept v).seed = s.seed := rfl

@[simp] theorem State.accept_src (v : Variant) (s : State) : (s.accept v).src = s.src := rfl

@[simp] theorem State.accept_len (v : Variant) (s : State) : (s.accept v).len = s.len := rfl

@[simp] theorem State.accept_errAddr (v : Variant) (s : State) : (s.accept v).errAddr = 0 := rfl

@[simp] theorem State.accept_res (v : Variant) (s : State) : (s.accept v).res = s.res := rfl

@[simp] theorem State.accept_mem (v : Variant) (s : State) : (s.accept v).mem = s.mem := rfl

@[simp] theorem State.accept_portReads (v : Variant) (s : State) : (s.accept v).portReads = s.portReads := rfl

@[simp] theorem State.accept_disturbed (v : Variant) (s : State) : (s.accept v).disturbed = false := rfl

@[simp] theorem State.accept_draws (v : Variant) (s : State) : (s.accept v).draws = s.draws := rfl

@[simp] theorem State.accept_host (v : Variant) (s : State) : (s.accept v).host = s.host := rfl

@[simp] theorem State.accept_observed (v : Variant) (s : State) : (s.accept v).observed = s.observed := rfl

@[simp] theorem State.accept_turns (v : Variant) (s : State) : (s.accept v).turns = s.turns := rfl

/-! ### resetBlock -/

@[simp] theorem State.resetBlock_cfg (s : State) : (s.resetBlock).cfg = s.cfg := rfl

@[simp] theorem State.resetBlock_variant (s : State) : (s.resetBlock).variant = 0 := rfl

@[simp] theorem State.resetBlock_ie (s : State) : (s.resetBlock).ie = false := rfl

@[simp] theorem State.resetBlock_phase (s : State) : (s.resetBlock).phase = .idle := rfl

@[simp] theorem State.resetBlock_done (s : State) : (s.resetBlock).done = false := rfl

@[simp] theorem State.resetBlock_err (s : State) : (s.resetBlock).err = false := rfl

@[simp] theorem State.resetBlock_errcode (s : State) : (s.resetBlock).errcode = 0 := rfl

@[simp] theorem State.resetBlock_seed (s : State) : (s.resetBlock).seed = Config.freeWord s.draws := rfl

@[simp] theorem State.resetBlock_src (s : State) : (s.resetBlock).src = Config.freeWord (s.draws + 1) := rfl

@[simp] theorem State.resetBlock_len (s : State) : (s.resetBlock).len = Config.freeWord (s.draws + 2) := rfl

@[simp] theorem State.resetBlock_errAddr (s : State) : (s.resetBlock).errAddr = 0 := rfl

@[simp] theorem State.resetBlock_res (s : State) : (s.resetBlock).res = .zero := rfl

@[simp] theorem State.resetBlock_mem (s : State) : (s.resetBlock).mem = s.mem := rfl

@[simp] theorem State.resetBlock_portReads (s : State) : (s.resetBlock).portReads = s.portReads := rfl

@[simp] theorem State.resetBlock_disturbed (s : State) : (s.resetBlock).disturbed = false := rfl

@[simp] theorem State.resetBlock_draws (s : State) : (s.resetBlock).draws = s.draws + 3 := rfl

@[simp] theorem State.resetBlock_host (s : State) : (s.resetBlock).host = s.host := rfl

@[simp] theorem State.resetBlock_observed (s : State) : (s.resetBlock).observed = s.observed := rfl

@[simp] theorem State.resetBlock_turns (s : State) : (s.resetBlock).turns = s.turns := rfl

/-! ### observe -/

@[simp] theorem State.observe_cfg (x : String) (v : Word) (s : State) : (s.observe x v).cfg = s.cfg := rfl

@[simp] theorem State.observe_variant (x : String) (v : Word) (s : State) : (s.observe x v).variant = s.variant := rfl

@[simp] theorem State.observe_ie (x : String) (v : Word) (s : State) : (s.observe x v).ie = s.ie := rfl

@[simp] theorem State.observe_phase (x : String) (v : Word) (s : State) : (s.observe x v).phase = s.phase := rfl

@[simp] theorem State.observe_done (x : String) (v : Word) (s : State) : (s.observe x v).done = s.done := rfl

@[simp] theorem State.observe_err (x : String) (v : Word) (s : State) : (s.observe x v).err = s.err := rfl

@[simp] theorem State.observe_errcode (x : String) (v : Word) (s : State) : (s.observe x v).errcode = s.errcode := rfl

@[simp] theorem State.observe_seed (x : String) (v : Word) (s : State) : (s.observe x v).seed = s.seed := rfl

@[simp] theorem State.observe_src (x : String) (v : Word) (s : State) : (s.observe x v).src = s.src := rfl

@[simp] theorem State.observe_len (x : String) (v : Word) (s : State) : (s.observe x v).len = s.len := rfl

@[simp] theorem State.observe_errAddr (x : String) (v : Word) (s : State) : (s.observe x v).errAddr = s.errAddr := rfl

@[simp] theorem State.observe_res (x : String) (v : Word) (s : State) : (s.observe x v).res = s.res := rfl

@[simp] theorem State.observe_mem (x : String) (v : Word) (s : State) : (s.observe x v).mem = s.mem := rfl

@[simp] theorem State.observe_portReads (x : String) (v : Word) (s : State) : (s.observe x v).portReads = s.portReads := rfl

@[simp] theorem State.observe_disturbed (x : String) (v : Word) (s : State) : (s.observe x v).disturbed = s.disturbed := rfl

@[simp] theorem State.observe_draws (x : String) (v : Word) (s : State) : (s.observe x v).draws = s.draws := rfl

@[simp] theorem State.observe_host (x : String) (v : Word) (s : State) : (s.observe x v).host = s.host := rfl

@[simp] theorem State.observe_observed (x : String) (v : Word) (s : State) : (s.observe x v).observed = s.observed ++ [(x, v)] := rfl

@[simp] theorem State.observe_turns (x : String) (v : Word) (s : State) : (s.observe x v).turns = s.turns := rfl

/-! ### acknowledge: the fields it never changes -/

@[simp] theorem State.acknowledge_cfg (w : Word) (s : State) : (s.acknowledge w).cfg = s.cfg := by
  unfold State.acknowledge; split <;> rfl

@[simp] theorem State.acknowledge_variant (w : Word) (s : State) : (s.acknowledge w).variant = s.variant := by
  unfold State.acknowledge; split <;> rfl

@[simp] theorem State.acknowledge_ie (w : Word) (s : State) : (s.acknowledge w).ie = s.ie := by
  unfold State.acknowledge; split <;> rfl

@[simp] theorem State.acknowledge_phase (w : Word) (s : State) : (s.acknowledge w).phase = s.phase := by
  unfold State.acknowledge; split <;> rfl

@[simp] theorem State.acknowledge_seed (w : Word) (s : State) : (s.acknowledge w).seed = s.seed := by
  unfold State.acknowledge; split <;> rfl

@[simp] theorem State.acknowledge_src (w : Word) (s : State) : (s.acknowledge w).src = s.src := by
  unfold State.acknowledge; split <;> rfl

@[simp] theorem State.acknowledge_len (w : Word) (s : State) : (s.acknowledge w).len = s.len := by
  unfold State.acknowledge; split <;> rfl

@[simp] theorem State.acknowledge_res (w : Word) (s : State) : (s.acknowledge w).res = s.res := by
  unfold State.acknowledge; split <;> rfl

@[simp] theorem State.acknowledge_mem (w : Word) (s : State) : (s.acknowledge w).mem = s.mem := by
  unfold State.acknowledge; split <;> rfl

@[simp] theorem State.acknowledge_portReads (w : Word) (s : State) : (s.acknowledge w).portReads = s.portReads := by
  unfold State.acknowledge; split <;> rfl

@[simp] theorem State.acknowledge_disturbed (w : Word) (s : State) : (s.acknowledge w).disturbed = s.disturbed := by
  unfold State.acknowledge; split <;> rfl

@[simp] theorem State.acknowledge_draws (w : Word) (s : State) : (s.acknowledge w).draws = s.draws := by
  unfold State.acknowledge; split <;> rfl

@[simp] theorem State.acknowledge_host (w : Word) (s : State) : (s.acknowledge w).host = s.host := by
  unfold State.acknowledge; split <;> rfl

@[simp] theorem State.acknowledge_observed (w : Word) (s : State) : (s.acknowledge w).observed = s.observed := by
  unfold State.acknowledge; split <;> rfl

@[simp] theorem State.acknowledge_turns (w : Word) (s : State) : (s.acknowledge w).turns = s.turns := by
  unfold State.acknowledge; split <;> rfl

/-! ### storeBytes: the fields it never changes -/

@[simp] theorem State.storeBytes_cfg (a : Nat) (bytes : List Byte) (s : State) : (s.storeBytes a bytes).cfg = s.cfg := by
  unfold State.storeBytes; split <;> rfl

@[simp] theorem State.storeBytes_variant (a : Nat) (bytes : List Byte) (s : State) : (s.storeBytes a bytes).variant = s.variant := by
  unfold State.storeBytes; split <;> rfl

@[simp] theorem State.storeBytes_ie (a : Nat) (bytes : List Byte) (s : State) : (s.storeBytes a bytes).ie = s.ie := by
  unfold State.storeBytes; split <;> rfl

@[simp] theorem State.storeBytes_phase (a : Nat) (bytes : List Byte) (s : State) : (s.storeBytes a bytes).phase = s.phase := by
  unfold State.storeBytes; split <;> rfl

@[simp] theorem State.storeBytes_done (a : Nat) (bytes : List Byte) (s : State) : (s.storeBytes a bytes).done = s.done := by
  unfold State.storeBytes; split <;> rfl

@[simp] theorem State.storeBytes_err (a : Nat) (bytes : List Byte) (s : State) : (s.storeBytes a bytes).err = s.err := by
  unfold State.storeBytes; split <;> rfl

@[simp] theorem State.storeBytes_errcode (a : Nat) (bytes : List Byte) (s : State) : (s.storeBytes a bytes).errcode = s.errcode := by
  unfold State.storeBytes; split <;> rfl

@[simp] theorem State.storeBytes_seed (a : Nat) (bytes : List Byte) (s : State) : (s.storeBytes a bytes).seed = s.seed := by
  unfold State.storeBytes; split <;> rfl

@[simp] theorem State.storeBytes_src (a : Nat) (bytes : List Byte) (s : State) : (s.storeBytes a bytes).src = s.src := by
  unfold State.storeBytes; split <;> rfl

@[simp] theorem State.storeBytes_len (a : Nat) (bytes : List Byte) (s : State) : (s.storeBytes a bytes).len = s.len := by
  unfold State.storeBytes; split <;> rfl

@[simp] theorem State.storeBytes_errAddr (a : Nat) (bytes : List Byte) (s : State) : (s.storeBytes a bytes).errAddr = s.errAddr := by
  unfold State.storeBytes; split <;> rfl

@[simp] theorem State.storeBytes_res (a : Nat) (bytes : List Byte) (s : State) : (s.storeBytes a bytes).res = s.res := by
  unfold State.storeBytes; split <;> rfl

@[simp] theorem State.storeBytes_portReads (a : Nat) (bytes : List Byte) (s : State) : (s.storeBytes a bytes).portReads = s.portReads := by
  unfold State.storeBytes; split <;> rfl

@[simp] theorem State.storeBytes_draws (a : Nat) (bytes : List Byte) (s : State) : (s.storeBytes a bytes).draws = s.draws := by
  unfold State.storeBytes; split <;> rfl

@[simp] theorem State.storeBytes_host (a : Nat) (bytes : List Byte) (s : State) : (s.storeBytes a bytes).host = s.host := by
  unfold State.storeBytes; split <;> rfl

@[simp] theorem State.storeBytes_observed (a : Nat) (bytes : List Byte) (s : State) : (s.storeBytes a bytes).observed = s.observed := by
  unfold State.storeBytes; split <;> rfl

@[simp] theorem State.storeBytes_turns (a : Nat) (bytes : List Byte) (s : State) : (s.storeBytes a bytes).turns = s.turns := by
  unfold State.storeBytes; split <;> rfl

@[simp] theorem State.storeBytes_mem (a : Nat) (bytes : List Byte) (s : State) :
    (s.storeBytes a bytes).mem = Memory.writeBytes s.mem a bytes := by
  unfold State.storeBytes; split <;> rfl

/-! ### useDraws: the fields it never changes -/

@[simp] theorem State.useDraws_cfg (s : State) : (s.useDraws).cfg = s.cfg := by
  unfold State.useDraws; split <;> rfl

@[simp] theorem State.useDraws_variant (s : State) : (s.useDraws).variant = s.variant := by
  unfold State.useDraws; split <;> rfl

@[simp] theorem State.useDraws_ie (s : State) : (s.useDraws).ie = s.ie := by
  unfold State.useDraws; split <;> rfl

@[simp] theorem State.useDraws_phase (s : State) : (s.useDraws).phase = s.phase := by
  unfold State.useDraws; split <;> rfl

@[simp] theorem State.useDraws_done (s : State) : (s.useDraws).done = s.done := by
  unfold State.useDraws; split <;> rfl

@[simp] theorem State.useDraws_err (s : State) : (s.useDraws).err = s.err := by
  unfold State.useDraws; split <;> rfl

@[simp] theorem State.useDraws_errcode (s : State) : (s.useDraws).errcode = s.errcode := by
  unfold State.useDraws; split <;> rfl

@[simp] theorem State.useDraws_seed (s : State) : (s.useDraws).seed = s.seed := by
  unfold State.useDraws; split <;> rfl

@[simp] theorem State.useDraws_src (s : State) : (s.useDraws).src = s.src := by
  unfold State.useDraws; split <;> rfl

@[simp] theorem State.useDraws_len (s : State) : (s.useDraws).len = s.len := by
  unfold State.useDraws; split <;> rfl

@[simp] theorem State.useDraws_errAddr (s : State) : (s.useDraws).errAddr = s.errAddr := by
  unfold State.useDraws; split <;> rfl

@[simp] theorem State.useDraws_res (s : State) : (s.useDraws).res = s.res := by
  unfold State.useDraws; split <;> rfl

@[simp] theorem State.useDraws_mem (s : State) : (s.useDraws).mem = s.mem := by
  unfold State.useDraws; split <;> rfl

@[simp] theorem State.useDraws_portReads (s : State) : (s.useDraws).portReads = s.portReads := by
  unfold State.useDraws; split <;> rfl

@[simp] theorem State.useDraws_host (s : State) : (s.useDraws).host = s.host := by
  unfold State.useDraws; split <;> rfl

@[simp] theorem State.useDraws_observed (s : State) : (s.useDraws).observed = s.observed := by
  unfold State.useDraws; split <;> rfl

@[simp] theorem State.useDraws_turns (s : State) : (s.useDraws).turns = s.turns := by
  unfold State.useDraws; split <;> rfl

@[simp] theorem State.useDraws_disturbed (s : State) : s.useDraws.disturbed = false := by
  unfold State.useDraws
  split
  · rfl
  · simp_all

/-! ### The snapshot and the report's readers -/

@[simp] theorem State.snapshot_code (s : State) (v : Variant) : (s.snapshot v).code = v := rfl

@[simp] theorem State.snapshot_seed (s : State) (v : Variant) : (s.snapshot v).seed = s.seed := rfl

@[simp] theorem State.snapshot_src (s : State) (v : Variant) : (s.snapshot v).src = s.src := rfl

@[simp] theorem State.snapshot_n (s : State) (v : Variant) : (s.snapshot v).n = s.len := rfl

@[simp] theorem State.snapshot_setCtrl (s : State) (c : BitVec 4) (b : Bool) (v : Variant) :
    (s.setCtrl c b).snapshot v = s.snapshot v := rfl

@[simp] theorem State.rangeOk_setCtrl (s : State) (c : BitVec 4) (b : Bool) :
    (s.setCtrl c b).rangeOk = s.rangeOk := rfl

theorem State.busy_eq_false_iff (s : State) : s.busy = false ↔ s.phase = .idle := by
  unfold State.busy; split <;> simp_all

theorem State.busy_eq_true_iff (s : State) : s.busy = true ↔ s.phase ≠ .idle := by
  unfold State.busy; split <;> simp_all

end Sys2Proof.Machine
end

