-- ==== Sys2Proof/Laws/Ops.lean ====
section
/-! SUPPORT. One lemma per shared operation that says once what it can do; later proofs cite it instead of unfolding. -/

namespace Sys2Proof.Machine

/-- Issuing a command rejects an illegal code, rejects a wrapping range, or accepts. -/
theorem State.issue_cases (v : BitVec 4) (s : State) :
    ((Variant.ofCode v = none ∨ ∃ f, Variant.ofCode v = some f ∧ Config.active s.cfg f = false) ∧
        s.issue v = s.reject errIllegalVariant) ∨
      (∃ f, Variant.ofCode v = some f ∧ Config.active s.cfg f = true ∧ s.rangeOk = false ∧
        s.issue v = s.reject errRange) ∨
      (∃ f, Variant.ofCode v = some f ∧ Config.active s.cfg f = true ∧ s.rangeOk = true ∧ s.issue v = s.accept f) := by
  unfold State.issue
  cases hf : Variant.ofCode v with
  | none => simp
  | some f => cases ha : Config.active s.cfg f <;> cases hr : s.rangeOk <;> simp [ha]

/-- A command writes CTRL; while BUSY that is all, and while IDLE the issue follows. -/
theorem State.command_cases (v : BitVec 4) (ie : Bool) (s : State) :
    (s.phase ≠ .idle ∧ s.command v ie = s.setCtrl v ie) ∨
      (s.phase = .idle ∧ s.command v ie = (s.setCtrl v ie).issue v) := by
  unfold State.command
  by_cases h : s.phase = .idle
  · exact .inr ⟨h, by simp [(State.busy_eq_false_iff s).mpr h]⟩
  · exact .inl ⟨h, by simp [(State.busy_eq_true_iff s).mpr h]⟩

/-- A CTRL write is a command or a plain configuration write. -/
theorem State.writeCtrl_cases (w : Word) (s : State) :
    (w.getLsbD 8 = true ∧ s.writeCtrl w = s.command (cmdVariant w) (cmdIe w)) ∨
      (w.getLsbD 8 = false ∧ s.writeCtrl w = s.setCtrl (cmdVariant w) (cmdIe w)) := by
  unfold State.writeCtrl cmdStart
  cases h : w.getLsbD 8 <;> simp

@[simp] theorem Variant.ofCode_code (v : Variant) : Variant.ofCode v.code = some v := by cases v <;> rfl

@[simp] theorem Reg.ofOffset_offset (r : Reg) : Reg.ofOffset r.offset = some r := by
  cases r with
  | reserved k => revert k; decide
  | _ => rfl

theorem Reg.offset_lt (r : Reg) : r.offset < 64 := by
  cases r with
  | reserved k => simp only [Reg.offset]; omega
  | _ => decide

/-- A register's own access reaches that register. -/
@[simp] theorem Access.resolve_access (base : Nat) (r : Reg) :
    Access.resolve base (r.access base) = .ok r := by
  simp [Access.resolve, Reg.access, Reg.offset_lt r]

/-- The register found at an offset has that offset. -/
theorem Reg.offset_of_ofOffset {off : Nat} {r : Reg} (h : Reg.ofOffset off = some r) : r.offset = off := by
  have h4 : off % 4 = 0 := by
    by_contra hne
    simp [Reg.ofOffset, hne] at h
  have h16 : off / 4 < 16 := by
    by_contra hge
    obtain ⟨k, hk⟩ := Nat.exists_eq_add_of_le (Nat.le_of_not_lt hge)
    simp [Reg.ofOffset, h4, hk, Nat.add_comm 16] at h
  have hoff : off = 4 * (off / 4) := by omega
  rw [hoff] at h ⊢
  generalize off / 4 = q at h h16
  interval_cases q <;> cases h <;> rfl

/-- An access that reaches a register is the register's own access. -/
theorem Access.eq_access_of_resolve {base : Nat} {a : Access} {r : Reg} (h : Access.resolve base a = .ok r) :
    a = r.access base := by
  unfold Access.resolve at h
  split at h
  · cases h
  · split at h
    · cases h
    · split at h
      · rename_i hb hw r' hr
        cases h
        have := Reg.offset_of_ofOffset hr
        obtain ⟨addr, bytes⟩ := a
        simp only [Reg.access, Access.mk.injEq] at *
        omega
      · cases h

/-- Every offset of the window that is a multiple of 4 is a register. -/
theorem Reg.ofOffset_isSome {off : Nat} (h : off < 64) (h4 : off % 4 = 0) : ∃ r, Reg.ofOffset off = some r := by
  have h16 : off / 4 < 16 := by omega
  unfold Reg.ofOffset
  rw [if_pos h4]
  generalize off / 4 = q at h16
  interval_cases q <;> exact ⟨_, rfl⟩

/-- A defined access reaches a register. -/
theorem Access.resolve_of_wf {base : Nat} {a : Access} (h : a.wf base = true) :
    ∃ r, Access.resolve base a = .ok r := by
  simp only [Access.wf, Bool.and_eq_true, decide_eq_true_eq, beq_iff_eq] at h
  obtain ⟨⟨⟨h1, h2⟩, h3⟩, h4⟩ := h
  obtain ⟨r, hr⟩ := Reg.ofOffset_isSome (off := a.addr - base) (by omega) h4
  have hn : ¬ (a.addr < base ∨ base + 64 ≤ a.addr) := by omega
  exact ⟨r, by simp [Access.resolve, hn, h3, hr]⟩

/-- What a host step can answer. -/
theorem State.hostStep_next {stmt : HostStmt} {s t : State} (h : s.hostStep stmt = .next t) :
    (∃ a w r, stmt = .wr a w ∧ Access.resolve s.cfg.regBase a = .ok r ∧ t = s.writeReg r w) ∨
      (∃ a x r, stmt = .rd a x ∧ Access.resolve s.cfg.regBase a = .ok r ∧ t = s.observe x (s.readReg r)) ∨
      (∃ a mask, stmt = .poll a mask ∧ (t = s ∨ t = { s with host := stmt :: s.host })) ∨
      (∃ addr bytes, stmt = .mem addr bytes ∧ addr.toNat + bytes.length ≤ 2 ^ 32 ∧
        t = s.storeBytes addr.toNat bytes) := by
  cases stmt with
  | wr a w =>
    simp only [State.hostStep] at h
    split at h
    · rename_i r hr
      exact .inl ⟨a, w, r, rfl, hr, by simpa using h.symm⟩
    · cases h
  | rd a x =>
    simp only [State.hostStep] at h
    split at h
    · rename_i r hr
      exact .inr (.inl ⟨a, x, r, rfl, hr, by simpa using h.symm⟩)
    · cases h
  | poll a mask =>
    simp only [State.hostStep] at h
    split at h
    · refine .inr (.inr (.inl ⟨a, mask, rfl, ?_⟩))
      split at h
      · exact .inl (by simpa using h.symm)
      · exact .inr (by simpa using h.symm)
    · cases h
  | mem addr bytes =>
    simp only [State.hostStep] at h
    split at h
    · exact .inr (.inr (.inr ⟨addr, bytes, rfl, by assumption, by simpa using h.symm⟩))
    · cases h

end Sys2Proof.Machine
end

