-- ==== Sys2Proof/Laws/PerInstr.lean ====
section
/-! SUPPORT. A statement made per instruction: the encoding of an instruction has its row's match word under the row's
mask, its IE bit, and zeros in the reserved bits (30_encoding.md rules R300, R302, R307; spec/opcode_table.json). -/

namespace Sys2Proof.Laws.EncodingRow

/-- The match word of an instruction's row in spec/opcode_table.json; every row's mask is 0x0000010F. -/
def rowMatch : Instr → Word
  | .mh2 _ => 0x00000100
  | .mh2a _ => 0x00000101
  | .mhn2 _ => 0x00000102
  | .mha2 _ => 0x00000103
  | .mh3_32 _ => 0x00000104
  | .mh64a _ => 0x00000105
  | .mh64b _ => 0x00000106
  | .mh3_x86_128 _ => 0x00000107
  | .mh3_x64_128 _ => 0x00000108

/-- The encoding fits the row. -/
def Statement (i : Instr) : Prop :=
  encode i &&& 0x0000010F#32 = rowMatch i ∧ (encode i).getLsbD 9 = i.ie ∧ encode i &&& 0xFFFFFCF0#32 = 0

end Sys2Proof.Laws.EncodingRow

theorem Sys2Proof.Laws.EncodingRow.mh2 (ie : Bool) : Sys2Proof.Laws.EncodingRow.Statement (.mh2 ie) := by
  cases ie <;> exact ⟨rfl, rfl, rfl⟩

theorem Sys2Proof.Laws.EncodingRow.mh2a (ie : Bool) : Sys2Proof.Laws.EncodingRow.Statement (.mh2a ie) := by
  cases ie <;> exact ⟨rfl, rfl, rfl⟩

theorem Sys2Proof.Laws.EncodingRow.mhn2 (ie : Bool) : Sys2Proof.Laws.EncodingRow.Statement (.mhn2 ie) := by
  cases ie <;> exact ⟨rfl, rfl, rfl⟩

theorem Sys2Proof.Laws.EncodingRow.mha2 (ie : Bool) : Sys2Proof.Laws.EncodingRow.Statement (.mha2 ie) := by
  cases ie <;> exact ⟨rfl, rfl, rfl⟩

theorem Sys2Proof.Laws.EncodingRow.mh3_32 (ie : Bool) : Sys2Proof.Laws.EncodingRow.Statement (.mh3_32 ie) := by
  cases ie <;> exact ⟨rfl, rfl, rfl⟩

theorem Sys2Proof.Laws.EncodingRow.mh64a (ie : Bool) : Sys2Proof.Laws.EncodingRow.Statement (.mh64a ie) := by
  cases ie <;> exact ⟨rfl, rfl, rfl⟩

theorem Sys2Proof.Laws.EncodingRow.mh64b (ie : Bool) : Sys2Proof.Laws.EncodingRow.Statement (.mh64b ie) := by
  cases ie <;> exact ⟨rfl, rfl, rfl⟩

theorem Sys2Proof.Laws.EncodingRow.mh3_x86_128 (ie : Bool) : Sys2Proof.Laws.EncodingRow.Statement (.mh3_x86_128 ie) := by
  cases ie <;> exact ⟨rfl, rfl, rfl⟩

theorem Sys2Proof.Laws.EncodingRow.mh3_x64_128 (ie : Bool) : Sys2Proof.Laws.EncodingRow.Statement (.mh3_x64_128 ie) := by
  cases ie <;> exact ⟨rfl, rfl, rfl⟩
end

