-- ==== Sys2Proof/Laws/Primitives.lean ====
section
/-! SUPPORT. The block loop's equations, and that it depends only on what its step does at the positions it visits. -/

namespace Sys2Proof.Machine

@[simp] theorem blockLoop_zero {σ : Type} (size : Nat) (f : σ → Nat → σ) (p : Nat) (acc : σ) :
    blockLoop size f 0 p acc = acc := rfl

theorem blockLoop_succ {σ : Type} (size : Nat) (f : σ → Nat → σ) (blocks p : Nat) (acc : σ) :
    blockLoop size f (blocks + 1) p acc = blockLoop size f blocks (p + size) (f acc p) := rfl

/-- One more block, taken at the end. -/
theorem blockLoop_succ_last {σ : Type} (size : Nat) (f : σ → Nat → σ) (blocks p : Nat) (acc : σ) :
    blockLoop size f (blocks + 1) p acc = f (blockLoop size f blocks p acc) (p + size * blocks) := by
  induction blocks generalizing p acc with
  | zero => rfl
  | succ n ih =>
    rw [blockLoop_succ, ih, ← blockLoop_succ]
    congr 1
    rw [Nat.mul_succ]
    omega

/-- Two loops whose steps agree at every position visited give the same accumulators. -/
theorem blockLoop_congr {σ : Type} {size : Nat} {f g : σ → Nat → σ} {blocks p : Nat}
    (h : ∀ acc k, k < blocks → f acc (p + size * k) = g acc (p + size * k)) (acc : σ) :
    blockLoop size f blocks p acc = blockLoop size g blocks p acc := by
  induction blocks with
  | zero => rfl
  | succ n ih =>
    rw [blockLoop_succ_last, blockLoop_succ_last, ih fun acc k hk => h acc k (by omega)]
    exact h _ n (by omega)

@[simp] theorem tail2_zero (B : List Byte) (h : Word) (p : Nat) : tail2 B h p 0 = h := rfl

@[simp] theorem tail64a_zero (B : List Byte) (h : DWord) (p : Nat) : tail64a B h p 0 = h := rfl

end Sys2Proof.Machine
end

