-- ==== Sys2Proof/Laws/Step.lean ====
section
/-! SUPPORT. What exec, the engine's step and one step of the machine can do, said once. -/

namespace Sys2Proof.Machine

/-- Every instruction answers a next state: that of its command. -/
theorem exec_eq (i : Instr) (s : State) : exec i s = .next (s.command i.variant.code i.ie) := by cases i <;> rfl

/-- The engine's step: nothing while IDLE, a result, or a bus error. -/
theorem State.engineStep_cases (s : State) :
    (s.phase = .idle ∧ s.engineStep = s) ∨
      ∃ j, s.phase = .busy j ∧
        ((∃ B, (dataPhase s.cfg s.mem j.src.toNat j.n.toNat).outcome = .ok B ∧
            s.engineStep =
              State.endWithResult (s.resOr (dispatch s.cfg.nativeOrder B j))
                { s.useDraws with
                  portReads := s.portReads ++ (dataPhase s.cfg s.mem j.src.toNat j.n.toNat).reads }) ∨
          (∃ fa, (dataPhase s.cfg s.mem j.src.toNat j.n.toNat).outcome = .fault fa ∧
            s.engineStep =
              State.endWithError errBus (BitVec.ofNat 32 fa) (s.resOr .zero)
                { s.useDraws with
                  portReads := s.portReads ++ (dataPhase s.cfg s.mem j.src.toNat j.n.toNat).reads })) := by
  unfold State.engineStep
  cases hp : s.phase with
  | idle => exact .inl ⟨rfl, rfl⟩
  | busy j =>
    refine .inr ⟨j, rfl, ?_⟩
    simp only [State.completeJob]
    cases ho : (dataPhase s.cfg s.mem j.src.toNat j.n.toNat).outcome with
    | ok B => exact .inl ⟨B, rfl, rfl⟩
    | fault fa => exact .inr ⟨fa, rfl, rfl⟩

/-- A statement that issues a command is a write that reaches CTRL with a word that decodes. -/
theorem commandOf_eq_some {base : Nat} {stmt : HostStmt} {i : Instr} (h : commandOf base stmt = some i) :
    ∃ a w, stmt = .wr a w ∧ Access.resolve base a = .ok .ctrl ∧ decode w = .ok i := by
  cases stmt with
  | wr a w =>
    simp only [commandOf] at h
    split at h
    · rename_i hr
      refine ⟨a, w, rfl, hr, ?_⟩
      cases hd : decode w with
      | ok j => simp_all [Except.toOption]
      | error e => simp_all [Except.toOption]
    · cases h
  | rd _ _ => cases h
  | poll _ _ => cases h
  | mem _ _ => cases h

/-- What moving past a host statement changes. -/
theorem HostNext.moved {s u : State} {stmt : HostStmt} (h : HostNext s stmt u) :
    ∃ rest ts, s.host = stmt :: rest ∧ u = { s with host := rest, turns := ts } := by
  obtain ⟨rest, hh, ⟨ts, -, rfl⟩ | ⟨-, -, rfl⟩⟩ := h
  · exact ⟨rest, ts, hh, rfl⟩
  · exact ⟨rest, s.turns, hh, rfl⟩

/-- What moving past the engine's turn changes. -/
theorem EngineNext.moved {s u : State} (h : EngineNext s u) : ∃ ts, u = { s with turns := ts } := by
  obtain ⟨ts, -, rfl⟩ | ⟨-, -, rfl⟩ := h
  · exact ⟨ts, rfl⟩
  · exact ⟨u.turns, rfl⟩

/-- On the host's turn, the host's move is the next one. -/
theorem State.nextMove_host {s u : State} {stmt : HostStmt} (h : HostNext s stmt u) :
    s.nextMove = (match commandOf s.cfg.regBase stmt with
      | some i => .command i
      | none => .host stmt, u) := by
  obtain ⟨rest, hh, ⟨ts, ht, rfl⟩ | ⟨ht, hp, rfl⟩⟩ := h
  · simp only [State.nextMove, ht, State.hostMove, hh]
    cases commandOf s.cfg.regBase stmt <;> rfl
  · simp only [State.nextMove, ht, (State.busy_eq_false_iff s).mpr hp, State.hostMove, hh]
    simp only [Bool.false_eq_true, if_false]
    cases commandOf s.cfg.regBase stmt <;> rfl

/-- A step on the host's turn. -/
theorem step_of_hostNext {s u : State} {stmt : HostStmt} (h : HostNext s stmt u) :
    step s = match commandOf s.cfg.regBase stmt with
      | some i => exec i u
      | none => u.hostStep stmt := by
  unfold step
  rw [State.nextMove_host h]
  cases commandOf s.cfg.regBase stmt <;> rfl

/-- A step on the engine's turn. -/
theorem step_of_engineNext {s u : State} (h : EngineNext s u) : step s = .next u.engineStep := by
  obtain ⟨ts, ht, rfl⟩ | ⟨ht, hp, rfl⟩ := h
  · simp [step, State.nextMove, ht]
  · simp [step, State.nextMove, ht, (State.busy_eq_true_iff u).mpr hp]

/-- A step on the reset input's turn. -/
theorem step_of_resetNext {s u : State} (h : ResetNext s u) : step s = .next u.resetBlock := by
  obtain ⟨ts, ht, rfl⟩ := h
  simp [step, State.nextMove, ht]

/-- Some agent has the next move, or the host has the turn and no statement left. -/
theorem next_cases (s : State) :
    (∃ stmt u, HostNext s stmt u) ∨ (∃ u, EngineNext s u) ∨ (∃ u, ResetNext s u) ∨
      (s.host = [] ∧ ∃ ts, (s.turns = .host :: ts ∨ s.turns = [] ∧ ts = [] ∧ s.phase = .idle) ∧
        step s = .next { s with turns := ts }) := by
  cases ht : s.turns with
  | nil =>
    by_cases hp : s.phase = .idle
    · cases hh : s.host with
      | nil =>
        refine .inr (.inr (.inr ⟨rfl, [], .inr ⟨rfl, rfl, hp⟩, ?_⟩))
        have : ({ s with host := [], turns := [] } : State) = s := by cases s; simp_all
        rw [this]
        simp [step, State.nextMove, ht, (State.busy_eq_false_iff s).mpr hp, State.hostMove, hh]
      | cons stmt rest => exact .inl ⟨stmt, _, rest, hh, .inr ⟨ht, hp, rfl⟩⟩
    · exact .inr (.inl ⟨s, .inr ⟨ht, hp, rfl⟩⟩)
  | cons x ts =>
    cases x with
    | host =>
      cases hh : s.host with
      | nil =>
        refine .inr (.inr (.inr ⟨rfl, ts, .inl rfl, ?_⟩))
        simp [step, State.nextMove, ht, State.hostMove, hh]
      | cons stmt rest => exact .inl ⟨stmt, _, rest, hh, .inl ⟨ts, ht, rfl⟩⟩
    | engine => exact .inr (.inl ⟨_, .inl ⟨ts, ht, rfl⟩⟩)
    | reset => exact .inr (.inr (.inl ⟨_, ts, ht, rfl⟩))

/-- A step that answers a next state is a command, another host statement, the engine's turn, reset, or nothing but the
passing of a turn. -/
theorem step_cases {s t : State} (h : step s = .next t) :
    (∃ stmt u i, HostNext s stmt u ∧ commandOf s.cfg.regBase stmt = some i ∧ t = u.command i.variant.code i.ie) ∨
      (∃ stmt u, HostNext s stmt u ∧ commandOf s.cfg.regBase stmt = none ∧ u.hostStep stmt = .next t) ∨
      (∃ u, EngineNext s u ∧ t = u.engineStep) ∨
      (∃ u, ResetNext s u ∧ t = u.resetBlock) ∨
      (s.host = [] ∧ ∃ ts, t = { s with turns := ts }) := by
  obtain ⟨stmt, u, hn⟩ | ⟨u, hn⟩ | ⟨u, hn⟩ | ⟨hh, ts, -, hs⟩ := next_cases s
  · rw [step_of_hostNext hn] at h
    cases hc : commandOf s.cfg.regBase stmt with
    | some i =>
      simp only [hc, exec_eq] at h
      exact .inl ⟨stmt, u, i, hn, hc, by simpa using h.symm⟩
    | none =>
      simp only [hc] at h
      exact .inr (.inl ⟨stmt, u, hn, hc, h⟩)
  · rw [step_of_engineNext hn] at h
    exact .inr (.inr (.inl ⟨u, hn, by simpa using h.symm⟩))
  · rw [step_of_resetNext hn] at h
    exact .inr (.inr (.inr (.inl ⟨u, hn, by simpa using h.symm⟩)))
  · rw [hs] at h
    exact .inr (.inr (.inr (.inr ⟨hh, ts, by simpa using h.symm⟩)))

end Sys2Proof.Machine
end

