-- ==== Sys2Proof/Laws/Words.lean ====
section
/-! SUPPORT. The word operands read bit by bit: which bit of which input byte each bit of an assembled word is
(40_primitives.md rules R400 to R404). -/

namespace Sys2Proof.Machine

/-- Bit k of a byte moved up to byte place j of a 64-bit word. -/
theorem byte64_shift_getLsbD (B : List Byte) (i j k : Nat) (hk : k < 64) :
    (byte64 B i <<< (8 * j)).getLsbD k = if k / 8 = j then (byteAt B i).getLsbD (k % 8) else false := by
  simp only [byte64, BitVec.getLsbD_shiftLeft, BitVec.getLsbD_setWidth]
  by_cases h : k / 8 = j
  · rw [if_pos h]
    have h1 : ¬ k < 8 * j := by omega
    have h2 : k - 8 * j = k % 8 := by omega
    have h3 : k % 8 < 64 := by omega
    simp [hk, h1, h2, h3]
  · rw [if_neg h]
    by_cases h1 : k < 8 * j
    · simp [h1]
    · have : (byteAt B i).getLsbD (k - 8 * j) = false := BitVec.getLsbD_of_ge _ _ (by omega)
      simp [this]

/-- Bit k of the same in a 32-bit word. -/
theorem byte32_shift_getLsbD (B : List Byte) (i j k : Nat) (hk : k < 32) :
    (byte32 B i <<< (8 * j)).getLsbD k = if k / 8 = j then (byteAt B i).getLsbD (k % 8) else false := by
  simp only [byte32, BitVec.getLsbD_shiftLeft, BitVec.getLsbD_setWidth]
  by_cases h : k / 8 = j
  · rw [if_pos h]
    have h1 : ¬ k < 8 * j := by omega
    have h2 : k - 8 * j = k % 8 := by omega
    have h3 : k % 8 < 32 := by omega
    simp [hk, h1, h2, h3]
  · rw [if_neg h]
    by_cases h1 : k < 8 * j
    · simp [h1]
    · have : (byteAt B i).getLsbD (k - 8 * j) = false := BitVec.getLsbD_of_ge _ _ (by omega)
      simp [this]

/-- A sum of words with no bit in common is their union. -/
theorem sumBelow_getLsbD {f : Nat → DWord} {c : Nat} (place : Nat → Nat)
    (hinj : ∀ i j, i < c → j < c → place i = place j → i = j)
    (hf : ∀ j k, j < c → k < 64 → k / 8 ≠ place j → (f j).getLsbD k = false) (k : Nat) (hk : k < 64) :
    (sumBelow f c).getLsbD k = true ↔ ∃ j, j < c ∧ (f j).getLsbD k = true := by
  induction c generalizing k with
  | zero => simp [sumBelow]
  | succ c ih =>
    have ih := ih (fun i j hi hj => hinj i j (by omega) (by omega)) (fun j k hj => hf j k (by omega))
    have hdis : sumBelow f c &&& f c = 0#64 := by
      apply BitVec.eq_of_getLsbD_eq
      intro b hb
      simp only [BitVec.getLsbD_and, BitVec.getLsbD_zero]
      cases h1 : (f c).getLsbD b
      · simp
      · cases h2 : (sumBelow f c).getLsbD b
        · rfl
        · obtain ⟨j, hj, h3⟩ := (ih b hb).mp h2
          have p1 : b / 8 = place c := by
            by_contra hne
            simp [hf c b (by omega) hb hne] at h1
          have p2 : b / 8 = place j := by
            by_contra hne
            simp [hf j b (by omega) hb hne] at h3
          have := hinj j c (by omega) (by omega) (by omega)
          omega
    rw [sumBelow, BitVec.add_eq_or_of_and_eq_zero _ _ hdis, BitVec.getLsbD_or, Bool.or_eq_true, ih k hk]
    constructor
    · rintro (⟨j, hj, h⟩ | h)
      · exact ⟨j, by omega, h⟩
      · exact ⟨c, by omega, h⟩
    · rintro ⟨j, hj, h⟩
      by_cases hjc : j = c
      · exact .inr (hjc ▸ h)
      · exact .inl ⟨j, by omega, h⟩

/-- Bit k of the little-endian word of c bytes at i (R402). -/
theorem le_getLsbD (B : List Byte) (i : Nat) {c : Nat} (hc : c ≤ 8) (k : Nat) :
    (le B i c).getLsbD k = if k < 8 * c then (byteAt B (i + k / 8)).getLsbD (k % 8) else false := by
  by_cases hk : k < 64
  · have h := sumBelow_getLsbD (f := fun j => byte64 B (i + j) <<< (8 * j)) (c := c) (fun j => j) (fun _ _ _ _ h => h)
      (fun j k _ hk hne => by rw [byte64_shift_getLsbD _ _ _ _ hk, if_neg hne]) k hk
    rw [Bool.eq_iff_iff, le, h]
    constructor
    · rintro ⟨j, hj, hb⟩
      rw [byte64_shift_getLsbD _ _ _ _ hk] at hb
      split at hb
      · rename_i hkj
        rw [if_pos (by omega), hkj]
        exact hb
      · cases hb
    · intro hb
      split at hb
      · exact ⟨k / 8, by omega, by rw [byte64_shift_getLsbD _ _ _ _ hk, if_pos rfl]; exact hb⟩
      · cases hb
  · rw [BitVec.getLsbD_of_ge _ _ (by omega), if_neg (by omega)]

/-- Bit k of the little-endian word in a 32-bit context (R402). -/
theorem le32_getLsbD (B : List Byte) (i : Nat) {c : Nat} (hc : c ≤ 4) (k : Nat) :
    (le32 B i c).getLsbD k = if k < 8 * c then (byteAt B (i + k / 8)).getLsbD (k % 8) else false := by
  rw [le32, BitVec.getLsbD_setWidth, le_getLsbD B i (by omega)]
  split
  · have : k < 32 := by omega
    simp [this]
  · simp

/-- Bit k of the native 64-bit word at i (R401). -/
theorem rdn64_getLsbD (o : NativeOrder) (B : List Byte) (i : Nat) {k : Nat} (hk : k < 64) :
    (rdn64 o B i).getLsbD k =
      (byteAt B (i + match o with | .le => k / 8 | .be => 7 - k / 8)).getLsbD (k % 8) := by
  cases o with
  | le =>
    have h := le_getLsbD B i (c := 8) (by omega) k
    rw [if_pos (by omega)] at h
    exact h
  | be =>
    have h := sumBelow_getLsbD (f := fun j => byte64 B (i + j) <<< (8 * (7 - j))) (c := 8) (fun j => 7 - j)
      (fun _ _ _ _ h => by omega)
      (fun j k _ hk hne => by rw [byte64_shift_getLsbD _ _ _ _ hk, if_neg hne]) k hk
    rw [Bool.eq_iff_iff, rdn64, h]
    constructor
    · rintro ⟨j, hj, hb⟩
      rw [byte64_shift_getLsbD _ _ _ _ hk] at hb
      split at hb
      · have : 7 - k / 8 = j := by omega
        simpa [this] using hb
      · cases hb
    · intro hb
      exact ⟨7 - k / 8, by omega, by rw [byte64_shift_getLsbD _ _ _ _ hk, if_pos (by omega)]; exact hb⟩

/-- Bit k of the native 32-bit word at i (R400). -/
theorem rdn32_getLsbD (o : NativeOrder) (B : List Byte) (i : Nat) {k : Nat} (hk : k < 32) :
    (rdn32 o B i).getLsbD k =
      (byteAt B (i + match o with | .le => k / 8 | .be => 3 - k / 8)).getLsbD (k % 8) := by
  have hs := fun i j => byte32_shift_getLsbD B i j k hk
  have h0 := fun i => hs i 0
  have h1 := fun i => hs i 1
  have h2 := fun i => hs i 2
  have h3 := fun i => hs i 3
  simp only [Nat.mul_zero, Nat.mul_one, Nat.reduceMul, BitVec.shiftLeft_zero] at h0 h1 h2 h3
  have hq : k / 8 = 0 ∨ k / 8 = 1 ∨ k / 8 = 2 ∨ k / 8 = 3 := by omega
  cases o <;> simp only [rdn32, BitVec.getLsbD_or, h0, h1, h2, h3] <;> rcases hq with h | h | h | h <;> simp [h]

/-- A byte of the padded tail: the input's byte below c, zero from c on (R404). -/
theorem byteAt_paddedTail (B : List Byte) (p c k : Nat) :
    byteAt (paddedTail B p c) k = if k < c then byteAt B (p + k) else 0 := by
  unfold byteAt paddedTail
  simp only [List.getD_eq_getElem?_getD, List.getElem?_append, List.length_take, List.length_drop,
    List.getElem?_replicate]
  split
  · have : k < c := by omega
    simp [this, List.getElem?_drop]
  · split
    · split
      · have : B[p + k]? = none := by simp; omega
        simp [this]
      · rfl
    · split
      · have : B[p + k]? = none := by simp; omega
        simp [this]
      · rfl

/-- A byte inside the input is the same whatever follows the input. -/
theorem byteAt_append {B junk : List Byte} {k : Nat} (h : k < B.length) : byteAt (B ++ junk) k = byteAt B k := by
  simp [byteAt, List.getElem?_append, h]

end Sys2Proof.Machine
end

