-- ==== Sys2Proof/Tests/Slice0.lean ====
section
/-! SUPPORT. Tests and witnesses. Expected values are those of 95_test_vectors.md, at the section or row named; the words
are written out from 30_encoding.md rules R300 and R302. A `witness_` theorem shows concrete operands that meet the
hypotheses of the obligation it is named after, clause by clause. -/

namespace Sys2Proof.Machine

/-! ### States to test on -/

/-- "hello" at 0x1000, seed 0, in a build with the given codes. -/
def tHello (enabled : BitVec 9) : State :=
  { State.reset with
    cfg := { Config.default with enabled := enabled }
    seed := 0
    src := 0x1000
    len := 5
    mem := [(0x1000, 0x68), (0x1001, 0x65), (0x1002, 0x6C), (0x1003, 0x6C), (0x1004, 0x6F)] }

/-- The example build 0x13D: codes 0, 2, 3, 4, 5, 8. -/
def tA : State := tHello 0x13D

/-- A conforming build with the other three codes: 0, 1, 2, 5, 6, 7. -/
def tB : State := tHello 0x0E7

/-- The operands at the top of the input space: SRC + LEN = 2^32. -/
def State.tTop (s : State) : State := { s with src := 0xFFFFFFFF, len := 1 }

/-- The operands past the top: SRC + LEN = 2^32 + 1. -/
def State.tPast (s : State) : State := { s with src := 0xFFFFFFFF, len := 2 }

/-- No input byte. -/
def State.tEmpty (s : State) : State := { s with len := 0 }

/-- BUS_OK is false at one address alone. -/
def State.tBad (a : Word) (s : State) : State := { s with cfg := { s.cfg with busErrors := [⟨a, a⟩] } }

/-- A report of a bus error stands in STATUS and ERRADDR, with an old result in RES. -/
def State.tReported (s : State) : State :=
  { s with ie := true, done := true, err := true, errcode := 3, errAddr := 0x1003, res := ⟨1, 2, 3, 4⟩ }

/-- MH2 on the operands as they are is running. -/
def State.tBusy (s : State) : State := { s with phase := .busy (s.snapshot .mh2), res := ⟨1, 2, 3, 4⟩ }

/-- The host has the turn, and this statement is its next. -/
def State.tSay (stmt : HostStmt) (s : State) : State := { s with host := stmt :: s.host, turns := .host :: s.turns }

/-- The engine has the turn. -/
def State.tEngine (s : State) : State := { s with turns := .engine :: s.turns }

/-- Reset has the turn. -/
def State.tReset (s : State) : State := { s with turns := .reset :: s.turns }

theorem tSay_next (stmt : HostStmt) (s : State) : HostNext (s.tSay stmt) stmt s := ⟨s.host, rfl, .inl ⟨s.turns, rfl, rfl⟩⟩

theorem tEngine_next (s : State) : EngineNext s.tEngine s := .inl ⟨s.turns, rfl, rfl⟩

theorem tReset_next (s : State) : ResetNext s.tReset s := ⟨s.turns, rfl, rfl⟩

/-- The next state, if there is one. -/
def tNext : Host.Outcome State Fault Refusal → Option State
  | .next t => some t
  | .fault _ => none
  | .refused _ => none

/-- The RES words after a command and the engine's step. -/
def tResult (i : Instr) (s : State) : Option ResWords := (tNext (exec i s)).map fun t => t.engineStep.res

/-- The registers after one step: STATUS, CTRL, ERRADDR. -/
def tStatus (s : State) : Option (Word × Word × Word) :=
  (tNext (step s)).map fun t => (t.readReg .status, t.readReg .ctrl, t.readReg .errAddr)

/-- "The quick brown fox jumps over the lazy dog". -/
def tFox : List Byte :=
  [0x54, 0x68, 0x65, 0x20, 0x71, 0x75, 0x69, 0x63, 0x6B, 0x20, 0x62, 0x72, 0x6F, 0x77, 0x6E, 0x20, 0x66, 0x6F, 0x78, 0x20,
    0x6A, 0x75, 0x6D, 0x70] ++
    [0x73, 0x20, 0x6F, 0x76, 0x65, 0x72, 0x20, 0x74, 0x68, 0x65, 0x20, 0x6C, 0x61, 0x7A, 0x79, 0x20, 0x64, 0x6F, 0x67]

/-- The job of a variant on "fox" with seed 1. -/
def tFoxJob (v : Variant) : Job := ⟨v, 1, 0, 43⟩

/-! ### WellFormed: each check, and an ill-formed term it refuses -/

/-- R8: two conforming builds; five codes, seven codes, and a build without code 5 are refused. -/
theorem test_wf_build :
    Config.wf tA.cfg = true ∧ Config.wf tB.cfg = true ∧ Config.wf { Config.default with enabled := 0x03D } = false ∧
      Config.wf { Config.default with enabled := 0x17D } = false ∧
      Config.wf { Config.default with enabled := 0x15D } = false := by decide

/-- R303: code 6 is not legal in the example build, code 5 is. -/
theorem test_wf_instr : (Instr.mh64b false).legalIn tA.cfg = false ∧ (Instr.mh64a true).legalIn tA.cfg = true := by decide

/-- R207: the last register is a defined access; a narrow, a misaligned and an outside one are not. -/
theorem test_wf_access :
    Access.wf 0x400 ⟨0x43C, 4⟩ = true ∧ Access.wf 0x400 ⟨0x400, 1⟩ = false ∧ Access.wf 0x400 ⟨0x402, 4⟩ = false ∧
      Access.wf 0x400 ⟨0x440, 4⟩ = false ∧ Access.wf 0x400 ⟨0x3FC, 4⟩ = false := by decide

/-- R200: a store of the last byte is well-formed, one past it is not. -/
theorem test_wf_store :
    HostStmt.wf 0 (.mem 0xFFFFFFFF [0xAA]) = true ∧ HostStmt.wf 0 (.mem 0xFFFFFFFF [0xAA, 0xBB]) = false ∧
      HostStmt.wf 0 (.rd ⟨0x29, 4⟩ "c") = false := by decide

/-! ### Decode: every constructor, its word written out bit by bit (R300, R302) -/

theorem test_decode_mh2 : decode 0b00000000000000000000000100000000#32 = .ok (.mh2 false) := by rfl
theorem test_decode_mh2a : decode 0b00000000000000000000001100000001#32 = .ok (.mh2a true) := by rfl
theorem test_decode_mhn2 : decode 0b00000000000000000000000100000010#32 = .ok (.mhn2 false) := by rfl
theorem test_decode_mha2 : decode 0b00000000000000000000001100000011#32 = .ok (.mha2 true) := by rfl
theorem test_decode_mh3_32 : decode 0b00000000000000000000000100000100#32 = .ok (.mh3_32 false) := by rfl
theorem test_decode_mh64a : decode 0b00000000000000000000001100000101#32 = .ok (.mh64a true) := by rfl
theorem test_decode_mh64b : decode 0b00000000000000000000000100000110#32 = .ok (.mh64b false) := by rfl
theorem test_decode_mh3_x86_128 : decode 0b00000000000000000000001100000111#32 = .ok (.mh3_x86_128 true) := by rfl

/-- The reserved bits are ignored (R303). -/
theorem test_decode_mh3_x64_128 : decode 0b11111111111111111111110111111000#32 = .ok (.mh3_x64_128 false) := by rfl

/-- A reserved code and a word without START are rejected by name, and a table word of 40 bits is no command. -/
theorem test_decode_rejects :
    decode 0b00000000000000000000000100001001#32 = .error (.reservedCode 9) ∧
      decode 0b00000000000000000000001000000111#32 = .error .noStart ∧ decodeTableWord 40 0x100 = none ∧
      decodeTableWord 32 0x100000305 = some (.mh64a true) := ⟨rfl, rfl, rfl, rfl⟩

/-- After reset the very next step runs the word, for every row, with IE 0 and with IE 1 on the last. -/
theorem test_fetch_every_row :
    ([0x100, 0x101, 0x102, 0x103, 0x104, 0x105, 0x106, 0x107, 0x108, 0x308].map fun w =>
      (decodeTableWord 32 w).isSome && (tNext (step (State.reset.withFetchWord 32 w))).isSome) =
      List.replicate 10 true := by rfl

/-! ### Primitives (section 3.1) -/

theorem test_rotates :
    rotl32 0x80000001 1 = 0x00000003 ∧ rotl32 0x12345678 8 = 0x34567812 ∧ rotl32 1 31 = 0x80000000 ∧
      rotl64 0x0123456789ABCDEF 31 = 0xC4D5E6F78091A2B3 ∧ rotl64 1 63 = 0x8000000000000000 := by decide +kernel

theorem test_words :
    rdn32 .le [0, 1, 2, 3, 4, 5, 6, 7] 1 = 0x04030201 ∧ rdn32 .be [0, 1, 2, 3, 4, 5, 6, 7] 1 = 0x01020304 ∧
      rdn64 .le [0, 1, 2, 3, 4, 5, 6, 7, 8] 1 = 0x0807060504030201 ∧
      rdn64 .be [0, 1, 2, 3, 4, 5, 6, 7, 8] 1 = 0x0102030405060708 ∧ le [1, 2, 3] 0 3 = 0x00030201 ∧
      le [0xFF] 0 1 = 0xFF ∧ le [1, 2, 3, 4, 5, 6, 7] 0 7 = 0x0007060504030201 ∧ le [1] 1 0 = 0 := by decide +kernel

theorem test_mix2 :
    mix2 0 1 = 0x9A2792E6 ∧ mix2 0x12345678 0x9ABCDEF0 = 0xC96C4680 ∧ tail2 [1, 2, 3] 0 0 3 = 0xBC641395 ∧
      tail2 [] 5 0 0 = 5 ∧ fin2 1 = 0x5BD15E36 ∧ fin2 0x12345678 = 0x499728CD := by decide +kernel

theorem test_mix64 :
    mix64a 0x0123456789ABCDEF 0xFEDCBA9876543210 = 0xC1FD796ECD60C7AD ∧ fin64a 1 = 0xC6A4A7935BD064DC ∧
      fin64b 1 0 = 0xDD9F019F79505248 ∧ fin64b 0x12345678 0x9ABCDEF0 = 0xC412F1D2A7BD8BAD := by decide +kernel

theorem test_mix3 :
    kmix32 0x74736574 0xCC9E2D51 15 0x1B873593 = 0x465F51E8 ∧
      kmix64 1 0x87C37B91114253D5 31 0x4CF5AD432745937F = 0x34E09D0B6BDEFE38 ∧
      kmix64 1 0x4CF5AD432745937F 33 0x87C37B91114253D5 = 0x4E26F5539BB7C37E ∧ fmix32 0x12345678 = 0xE37CD1BC ∧
      fmix64 1 = 0xB456BCFC34C2CB2C := by decide +kernel

/-! ### Instructions: the command and the engine's step on "hello" (section 3.7), and "fox" with seed 1 (section 3.2) -/

theorem test_mh2_hello : tResult (.mh2 false) tA = some ⟨0xE56129CB, 0, 0, 0⟩ := by decide +kernel
theorem test_mh2a_hello : tResult (.mh2a false) tB = some ⟨0x0F7E3BDA, 0, 0, 0⟩ := by decide +kernel
theorem test_mhn2_hello : tResult (.mhn2 false) tA = some ⟨0xE56129CB, 0, 0, 0⟩ := by decide +kernel
theorem test_mha2_hello : tResult (.mha2 false) tA = some ⟨0xE56129CB, 0, 0, 0⟩ := by decide +kernel
theorem test_mh3_32_hello : tResult (.mh3_32 false) tA = some ⟨0x248BFA47, 0, 0, 0⟩ := by decide +kernel
theorem test_mh64a_hello : tResult (.mh64a true) tA = some ⟨0x457BF117, 0x1E68D17C, 0, 0⟩ := by decide +kernel
theorem test_mh64b_hello : tResult (.mh64b true) tB = some ⟨0x2543FD7F, 0xF510DB15, 0, 0⟩ := by decide +kernel
theorem test_mh3_x86_128_hello :
    tResult (.mh3_x86_128 true) tB = some ⟨0x2B2444A0, 0xDB91DEF7, 0x9ADB31B6, 0x9ADB31B6⟩ := by decide +kernel
theorem test_mh3_x64_128_hello :
    tResult (.mh3_x64_128 true) tA = some ⟨0x41BD9B02, 0xCBD8A7B3, 0x48AE1D19, 0x5B1E906A⟩ := by decide +kernel

theorem test_mh2_fox : dispatch .le tFox (tFoxJob .mh2) = ⟨0x1E1049E7, 0, 0, 0⟩ := by decide +kernel
theorem test_mh2a_fox : dispatch .le tFox (tFoxJob .mh2a) = ⟨0x0A5FD409, 0, 0, 0⟩ := by decide +kernel
theorem test_mhn2_fox : dispatch .le tFox (tFoxJob .mhn2) = ⟨0x1E1049E7, 0, 0, 0⟩ := by decide +kernel
theorem test_mh3_32_fox : dispatch .le tFox (tFoxJob .mh3_32) = ⟨0x78E69E27, 0, 0, 0⟩ := by decide +kernel
theorem test_mh64a_fox : dispatch .le tFox (tFoxJob .mh64a) = ⟨0xF2275040, 0xD8D4E6BA, 0, 0⟩ := by decide +kernel
theorem test_mh64b_fox : dispatch .le tFox (tFoxJob .mh64b) = ⟨0x0BCFBB01, 0x3F2338ED, 0, 0⟩ := by decide +kernel
theorem test_mh3_x86_128_fox : dispatch .le tFox (tFoxJob .mh3_x86_128) = ⟨0xD5A4C21D, 0x340673EB, 0x2BAEFF5D, 0x9F7EAE99⟩ := by decide +kernel
theorem test_mh3_x64_128_fox : dispatch .le tFox (tFoxJob .mh3_x64_128) = ⟨0xBBD1E13E, 0xE533566D, 0xC967FA20, 0x625A21A4⟩ := by decide +kernel

/-- The misaligned path at a = 2, which gives MH2's value under LE (R506). -/
theorem test_mha2_fox : dispatch .le tFox ⟨.mha2, 1, 2, 43⟩ = ⟨0x1E1049E7, 0, 0, 0⟩ := by decide +kernel

/-- Section 3.5 and 3.6, NATIVE_ORDER = BE: "test" for MH2, and 00..07 at a = 1 for MHA2. -/
theorem test_native_be :
    mh2 .be [0x74, 0x65, 0x73, 0x74] 0 4 = 0xF7F9DE11 ∧ mha2 .be [0, 1, 2, 3, 4, 5, 6, 7] 0 8 1 = 0xE308EBE3 ∧
      mha2 .be [0x68, 0x65, 0x6C, 0x6C, 0x6F] 0 5 3 = 0x9A437A12 := by decide +kernel

/-! ### The register interface (section 3.8) -/

/-- V1: CAPS under LE and under BE. -/
theorem test_v1_caps :
    State.reset.readReg .caps = 0x0000013D ∧ Config.capsWord { Config.default with nativeOrder := .be } = 0x0001013D := by
  decide

/-- V4 and V5: a CTRL write without START. -/
theorem test_v4_v5 :
    tStatus (tA.tSay (.wr ⟨0, 4⟩ 0x00000207)) = some (0, 0x207, 0) ∧
      tStatus (tA.tSay (.wr ⟨0, 4⟩ 0xFFFFFEF4)) = some (0, 0x204, 0) := by decide +kernel

/-- V7, V8, V12: rejections with error 1, the last against a wrapping range. -/
theorem test_v7_v8_v12 :
    tStatus (tA.tSay (.wr ⟨0, 4⟩ 0x109)) = some (0x16, 0x009, 0) ∧
      tStatus (tA.tSay (.wr ⟨0, 4⟩ 0x106)) = some (0x16, 0x006, 0) ∧
      tStatus (tA.tPast.tSay (.wr ⟨0, 4⟩ 0x10F)) = some (0x16, 0x00F, 0) := by decide +kernel

/-- V9, V10, V11: the range check at its border, and the empty input. -/
theorem test_v9_v10_v11 :
    tStatus (tA.tPast.tSay (.wr ⟨0, 4⟩ 0x100)) = some (0x26, 0, 0) ∧
      tStatus (tA.tTop.tSay (.wr ⟨0, 4⟩ 0x100)) = some (0x1, 0, 0) ∧ tResult (.mh2 false) tA.tEmpty = some ⟨0, 0, 0, 0⟩ := by
  decide +kernel

/-- V13 and V14: a command and an acknowledge while BUSY. -/
theorem test_v13_v14 :
    tStatus (tA.tBusy.tSay (.wr ⟨0, 4⟩ 0x305)) = some (0x1, 0x205, 0) ∧
      tStatus (tA.tBusy.tSay (.wr ⟨4, 4⟩ 0x2)) = some (0x1, 0, 0) := by decide +kernel

/-- V15 and V16: the acknowledge of a report, and irq following IE. -/
theorem test_v15_v16 :
    tStatus (tA.tReported.tSay (.wr ⟨4, 4⟩ 0x2)) = some (0, 0x200, 0) ∧ tA.tReported.irq = true ∧
      (tNext (step (tA.tReported.tSay (.wr ⟨0, 4⟩ 0)))).map (fun t => (t.irq, t.done, t.res)) =
        some (false, true, ⟨1, 2, 3, 4⟩) := by decide +kernel

/-- V17: a bus error at SRC + 3 ends the job after four reads. -/
theorem test_v17 :
    ((tA.tBad 0x1003).tBusy.engineStep.portReads, (tA.tBad 0x1003).tBusy.engineStep.statusWord,
        (tA.tBad 0x1003).tBusy.engineStep.errAddr, (tA.tBad 0x1003).tBusy.engineStep.res) =
      ([0x1000, 0x1001, 0x1002, 0x1003], 0x36, 0x1003, ⟨0, 0, 0, 0⟩) := by decide +kernel

/-! ### Witnesses: commands -/

/-- BUS_OK is true everywhere in a build without bus errors. -/
theorem tReadable (c : Config) (src n : Word) (h : c.busErrors = []) : Readable c src n := by
  intro k _
  simp [Config.busOk, h]

theorem witness_StepRunsTheDecodedCommand :
    ∃ s t w i, HostNext s (.wr (Reg.access .ctrl s.cfg.regBase) w) t ∧ decode w = .ok i :=
  ⟨tA.tSay (.wr ⟨0, 4⟩ 0x305), tA, 0x305, .mh64a true, tSay_next _ _, rfl⟩

/-- Every variant is accepted in one of the two builds, and at SRC + LEN = 2^32 exactly. -/
theorem witness_EveryCommandIsAccepted :
    (∀ v, tA.Accepts v ∨ tB.Accepts v) ∧ (∀ v, tA.tTop.Accepts v ∨ tB.tTop.Accepts v) ∧
      tA.tTop.src.toNat + tA.tTop.len.toNat = 2 ^ 32 := by
  refine ⟨fun v => ?_, fun v => ?_, by decide⟩ <;> cases v <;>
    first
    | exact .inl ⟨rfl, by decide, by decide⟩
    | exact .inr ⟨rfl, by decide, by decide⟩

theorem witness_CommandWhileBusyIsIgnored :
    tA.tBusy.phase ≠ .idle ∧
      (∃ s t w, HostNext s (.wr (Reg.access .ctrl s.cfg.regBase) w) t ∧ w.getLsbD 8 = true ∧ s.phase ≠ .idle) ∧
      ∃ s t w, HostNext s (.wr (Reg.access .ctrl s.cfg.regBase) w) t ∧ w.getLsbD 8 = true ∧ s.phase = .idle :=
  ⟨by decide, ⟨tA.tBusy.tSay (.wr ⟨0, 4⟩ 0x100), tA.tBusy, 0x100, tSay_next _ _, by decide, by decide⟩,
    tA.tSay (.wr ⟨0, 4⟩ 0x100), tA, 0x100, tSay_next _ _, by decide, rfl⟩

/-- An illegal code against a wrapping range, the highest code that is a variant, a wrapping range, and the border. -/
theorem witness_IssueChecksInOrder :
    (∃ s t w, HostNext s (.wr (Reg.access .ctrl s.cfg.regBase) w) t ∧ w.getLsbD 8 = true ∧ s.phase = .idle ∧
        (w.extractLsb' 0 4).toNat = 9 ∧ 2 ^ 32 < s.src.toNat + s.len.toNat) ∧
      (∃ s t w, HostNext s (.wr (Reg.access .ctrl s.cfg.regBase) w) t ∧ w.getLsbD 8 = true ∧ s.phase = .idle ∧
        (w.extractLsb' 0 4).toNat = 8 ∧ s.cfg.enabled.getLsbD (w.extractLsb' 0 4).toNat = false) ∧
      (∃ s t w, HostNext s (.wr (Reg.access .ctrl s.cfg.regBase) w) t ∧ w.getLsbD 8 = true ∧ s.phase = .idle ∧
        s.cfg.enabled.getLsbD (w.extractLsb' 0 4).toNat = true ∧ s.src.toNat + s.len.toNat = 2 ^ 32 + 1) ∧
      ∃ s t w, HostNext s (.wr (Reg.access .ctrl s.cfg.regBase) w) t ∧ w.getLsbD 8 = true ∧ s.phase = .idle ∧
        s.cfg.enabled.getLsbD (w.extractLsb' 0 4).toNat = true ∧ s.src.toNat + s.len.toNat = 2 ^ 32 :=
  ⟨⟨tA.tPast.tSay (.wr ⟨0, 4⟩ 0x109), tA.tPast, 0x109, tSay_next _ _, by decide, rfl, by decide, by decide⟩,
    ⟨tB.tSay (.wr ⟨0, 4⟩ 0x108), tB, 0x108, tSay_next _ _, by decide, rfl, by decide, by decide⟩,
    ⟨tA.tPast.tSay (.wr ⟨0, 4⟩ 0x108), tA.tPast, 0x108, tSay_next _ _, by decide, rfl, by decide, by decide⟩,
    tA.tTop.tSay (.wr ⟨0, 4⟩ 0x108), tA.tTop, 0x108, tSay_next _ _, by decide, rfl, by decide, by decide⟩

theorem witness_ReservedAndInactiveCodesAreRejected :
    (∃ s t w, HostNext s (.wr (Reg.access .ctrl s.cfg.regBase) w) t ∧ s.phase = .idle ∧ w.getLsbD 8 = true ∧
        (w.extractLsb' 0 4).toNat = 15) ∧
      ∃ s t w, HostNext s (.wr (Reg.access .ctrl s.cfg.regBase) w) t ∧ s.phase = .idle ∧ w.getLsbD 8 = true ∧
        s.cfg.enabled.getLsbD (w.extractLsb' 0 4).toNat = false :=
  ⟨⟨tA.tSay (.wr ⟨0, 4⟩ 0xFFFFFFFF), tA, 0xFFFFFFFF, tSay_next _ _, rfl, by decide, by decide⟩,
    tA.tSay (.wr ⟨0, 4⟩ 0x106), tA, 0x106, tSay_next _ _, rfl, by decide, by decide⟩

/-- A command while BUSY, one that is accepted, and one that is rejected and changes RES. -/
theorem witness_CommandFrame :
    (∃ i s t, exec i s = .next t ∧ s.phase ≠ .idle) ∧ (∃ i s t, exec i s = .next t ∧ s.phase = .idle ∧ t.phase ≠ .idle) ∧
      ∃ i s t, exec i s = .next t ∧ t.res ≠ s.res :=
  ⟨⟨.mh2 true, tA.tBusy, _, rfl, by decide⟩, ⟨.mh2 true, tA, _, rfl, rfl, by decide⟩,
    .mh2a true, tA.tReported, _, rfl, by decide⟩

theorem witness_MurmurHash2JobsReportTheirHash :
    Readable tA.cfg tA.src tA.len ∧ tA.Accepts .mh2 ∧ tA.Accepts .mhn2 ∧ tA.Accepts .mha2 ∧
      Readable tB.cfg tB.src tB.len ∧ tB.Accepts .mh2a :=
  ⟨tReadable _ _ _ rfl, ⟨rfl, by decide, by decide⟩, ⟨rfl, by decide, by decide⟩, ⟨rfl, by decide, by decide⟩,
    tReadable _ _ _ rfl, rfl, by decide, by decide⟩

theorem witness_MurmurHash64JobsReportTheirHash :
    Readable tB.cfg tB.src tB.len ∧ tB.Accepts .mh64a ∧ tB.Accepts .mh64b :=
  ⟨tReadable _ _ _ rfl, ⟨rfl, by decide, by decide⟩, rfl, by decide, by decide⟩

theorem witness_MurmurHash3JobsReportTheirHash :
    Readable tA.cfg tA.src tA.len ∧ tA.Accepts .mh3_32 ∧ tA.Accepts .mh3_x64_128 ∧
      Readable tB.cfg tB.src tB.len ∧ tB.Accepts .mh3_x86_128 :=
  ⟨tReadable _ _ _ rfl, ⟨rfl, by decide, by decide⟩, ⟨rfl, by decide, by decide⟩, tReadable _ _ _ rfl, rfl, by decide,
    by decide⟩

/-! ### Witnesses: the engine -/

/-- A range that answers, one that fails at its first byte, and one that fails at its last. -/
theorem witness_DataPhaseReadsInOrder :
    (∀ k, k < 5 → Config.busOk tA.cfg (0x1000 + k) = true) ∧
      (0 < 5 ∧ (∀ i, i < 0 → Config.busOk (tA.tBad 0x1000).cfg (0x1000 + i) = true) ∧
        Config.busOk (tA.tBad 0x1000).cfg (0x1000 + 0) = false) ∧
      4 < 5 ∧ (∀ i, i < 4 → Config.busOk (tA.tBad 0x1004).cfg (0x1000 + i) = true) ∧
        Config.busOk (tA.tBad 0x1004).cfg (0x1000 + 4) = false := by
  refine ⟨fun _ _ => rfl, ⟨by decide, by decide, by decide⟩, by decide, by decide, by decide⟩

/-- A job on five bytes on a scheduled turn, and one on no byte by the default. -/
theorem witness_CompletionWritesTheResult :
    (∃ s t j, EngineNext s t ∧ s.phase = .busy j ∧ s.disturbed = false ∧ Readable s.cfg j.src j.n ∧ j.n = 5) ∧
      ∃ s t j, EngineNext s t ∧ s.phase = .busy j ∧ s.disturbed = false ∧ Readable s.cfg j.src j.n ∧ j.n = 0 :=
  ⟨⟨tA.tBusy.tEngine, tA.tBusy, _, tEngine_next _, rfl, rfl, tReadable _ _ _ rfl, rfl⟩,
    tA.tEmpty.tBusy, tA.tEmpty.tBusy, _, .inr ⟨rfl, by decide, rfl⟩, rfl, rfl, tReadable _ _ _ rfl, rfl⟩

/-- The least failing address is the last of the input space. -/
theorem witness_CompletionReportsTheBusError :
    ∃ s t j k, EngineNext s t ∧ s.phase = .busy j ∧ s.disturbed = false ∧ j.src.toNat + j.n.toNat = 2 ^ 32 ∧
      k < j.n.toNat ∧ (∀ i, i < k → Config.busOk s.cfg (j.src.toNat + i) = true) ∧
      Config.busOk s.cfg (j.src.toNat + k) = false :=
  ⟨(tA.tTop.tBad 0xFFFFFFFF).tBusy.tEngine, (tA.tTop.tBad 0xFFFFFFFF).tBusy, _, 0, tEngine_next _, rfl, rfl, by decide,
    by decide, fun _ h => absurd h (Nat.not_lt_zero _), by decide⟩

theorem witness_DisturbedJobStillCompletes :
    (∃ s t j, EngineNext s t ∧ s.phase = .busy j ∧ s.disturbed = true ∧ Readable s.cfg j.src j.n) ∧
      ∃ s t j k, EngineNext s t ∧ s.phase = .busy j ∧ s.disturbed = true ∧ k < j.n.toNat ∧
        (∀ i, i < k → Config.busOk s.cfg (j.src.toNat + i) = true) ∧ Config.busOk s.cfg (j.src.toNat + k) = false :=
  ⟨⟨({ tA.tBusy with disturbed := true } : State).tEngine, { tA.tBusy with disturbed := true }, _, tEngine_next _, rfl,
      rfl, tReadable _ _ _ rfl⟩,
    ({ (tA.tBad 0x1003).tBusy with disturbed := true } : State).tEngine,
      { (tA.tBad 0x1003).tBusy with disturbed := true }, _, 3, tEngine_next _, rfl, rfl, by decide, by decide, by decide⟩

/-- Two states that differ in RES, in the schedule and in where the bytes lie, both running MHA2 on "hello". -/
theorem witness_ResultDependsOnJobAndBytesOnly :
    ∃ (s₁ s₂ : State) (j₁ j₂ : Job), s₁ ≠ s₂ ∧ j₁.src ≠ j₂.src ∧ j₁.code = .mha2 ∧ s₁.phase = .busy j₁ ∧
      s₂.phase = .busy j₂ ∧ s₁.disturbed = false ∧ s₂.disturbed = false ∧ j₁.code = j₂.code ∧ j₁.seed = j₂.seed ∧
      j₁.n = j₂.n ∧ (j₁.code = .mha2 → j₁.src.toNat % 4 = j₂.src.toNat % 4) ∧
      s₁.cfg.nativeOrder = s₂.cfg.nativeOrder ∧ Readable s₁.cfg j₁.src j₁.n ∧ Readable s₂.cfg j₂.src j₂.n ∧
      ∀ k, k < j₁.n.toNat → Memory.read s₁.mem (j₁.src.toNat + k) = Memory.read s₂.mem (j₂.src.toNat + k) :=
  ⟨{ tA with phase := .busy ⟨.mha2, 0, 0x1001, 4⟩ },
    { tA with
      phase := .busy ⟨.mha2, 0, 0x2001, 4⟩
      res := ⟨1, 2, 3, 4⟩
      mem := [(0x2001, 0x65), (0x2002, 0x6C), (0x2003, 0x6C), (0x2004, 0x6F)]
      turns := [.host] },
    _, _, by decide, by decide, rfl, rfl, rfl, rfl, rfl, rfl, rfl, rfl, fun _ => by decide, rfl, tReadable _ _ _ rfl,
    tReadable _ _ _ rfl, by decide⟩

theorem witness_EngineRestsWhileIdle : ∃ s t, EngineNext s t ∧ s.phase = .idle := ⟨tA.tEngine, tA, tEngine_next _, rfl⟩

/-- A BUSY state with a defined statement and two turns scheduled, neither of them reset. -/
theorem witness_EveryAcceptedJobCompletes :
    ∃ s : State, s.phase ≠ .idle ∧ s.turns = [.host, .host] ∧ s.host ≠ [] ∧
      (∀ stmt ∈ s.host, HostStmt.wf s.cfg.regBase stmt = true) ∧ Turn.reset ∉ s.turns :=
  ⟨{ tA.tBusy with host := [.poll ⟨4, 4⟩ 2], turns := [.host, .host] }, by decide, rfl, by decide, by decide, by decide⟩

/-- Reset in the middle of a job (program P8). -/
theorem witness_ResetClearsTheBlock : ∃ s t, ResetNext s t ∧ s.phase ≠ .idle :=
  ⟨tA.tBusy.tReset, tA.tBusy, tReset_next _, by decide⟩

/-! ### Witnesses: the window and the input space -/

theorem witness_CtrlWriteWithoutStartIsNoCommand :
    ∃ s t w, HostNext s (.wr (Reg.access .ctrl s.cfg.regBase) w) t ∧ w.getLsbD 8 = false :=
  ⟨tA.tBusy.tSay (.wr ⟨0, 4⟩ 0xFFFFFEF4), tA.tBusy, 0xFFFFFEF4, tSay_next _ _, by decide⟩

/-- A report acknowledged, a STATUS write without bit 1, and one without a report. -/
theorem witness_StatusWriteAcknowledges :
    (∃ s t w, HostNext s (.wr (Reg.access .status s.cfg.regBase) w) t ∧ w.getLsbD 1 = true ∧ s.done = true) ∧
      (∃ s t w, HostNext s (.wr (Reg.access .status s.cfg.regBase) w) t ∧ w.getLsbD 1 = false ∧ s.done = true) ∧
      ∃ s t w, HostNext s (.wr (Reg.access .status s.cfg.regBase) w) t ∧ w.getLsbD 1 = true ∧ s.done = false :=
  ⟨⟨tA.tReported.tSay (.wr ⟨4, 4⟩ 0x2), tA.tReported, 0x2, tSay_next _ _, by decide, rfl⟩,
    ⟨tA.tReported.tSay (.wr ⟨4, 4⟩ 0xFFFFFFFD), tA.tReported, 0xFFFFFFFD, tSay_next _ _, by decide, rfl⟩,
    tA.tBusy.tSay (.wr ⟨4, 4⟩ 0x2), tA.tBusy, 0x2, tSay_next _ _, by decide, rfl⟩

theorem witness_OperandWritesSetTheRegister :
    (∃ s t w, HostNext s (.wr (Reg.access .seed s.cfg.regBase) w) t ∧ s.phase ≠ .idle) ∧
      (∃ s t w, HostNext s (.wr (Reg.access .src s.cfg.regBase) w) t) ∧
      ∃ s t w, HostNext s (.wr (Reg.access .len s.cfg.regBase) w) t :=
  ⟨⟨tA.tBusy.tSay (.wr ⟨0x08, 4⟩ 1), tA.tBusy, 1, tSay_next _ _, by decide⟩,
    ⟨tA.tSay (.wr ⟨0x0C, 4⟩ 1), tA, 1, tSay_next _ _⟩, tA.tSay (.wr ⟨0x10, 4⟩ 1), tA, 1, tSay_next _ _⟩

/-- A write to the last reserved offset and to CAPS, a read, and words that differ in ignored bits alone. -/
theorem witness_ReservedAndReadOnlyAreInert :
    (∃ s t w, HostNext s (.wr (Reg.access (.reserved 4) s.cfg.regBase) w) t) ∧
      (∃ s t w, HostNext s (.wr (Reg.access .caps s.cfg.regBase) w) t) ∧
      (∃ s t x, HostNext s (.rd (Reg.access (.reserved 0) s.cfg.regBase) x) t) ∧
      (0xFFFFFFFF#32 &&& 0x0000030F#32 = 0x0000030F#32 &&& 0x0000030F#32) ∧
      (0xFFFFFFFF#32).getLsbD 1 = (0x2#32).getLsbD 1 :=
  ⟨⟨tA.tSay (.wr ⟨0x3C, 4⟩ 1), tA, 1, tSay_next _ _⟩, ⟨tA.tSay (.wr ⟨0x28, 4⟩ 1), tA, 1, tSay_next _ _⟩,
    ⟨tA.tSay (.rd ⟨0x2C, 4⟩ "r"), tA, "r", tSay_next _ _⟩, by decide, by decide⟩

/-- A narrow access at the first byte, a misaligned one at the last, and a defined one in the last slot. -/
theorem witness_UndefinedAccessIsRefused :
    (∃ (s t : State) (a : Access) (w : Word), s.cfg.regBase ≤ a.addr ∧ a.addr < s.cfg.regBase + 64 ∧ a.bytes ≠ 4 ∧
        HostNext s (.wr a w) t) ∧
      (∃ (s t : State) (a : Access) (x : String), s.cfg.regBase ≤ a.addr ∧ a.addr < s.cfg.regBase + 64 ∧
        (a.addr - s.cfg.regBase) % 4 ≠ 0 ∧ HostNext s (.rd a x) t) ∧
      ∃ (s t : State) (a : Access) (w : Word), s.cfg.regBase ≤ a.addr ∧ a.addr < s.cfg.regBase + 64 ∧ a.bytes = 4 ∧
        (a.addr - s.cfg.regBase) % 4 = 0 ∧ HostNext s (.poll a w) t :=
  ⟨⟨tA.tSay (.wr ⟨0, 1⟩ 1), tA, ⟨0, 1⟩, 1, by decide, by decide, by decide, tSay_next _ _⟩,
    ⟨tA.tSay (.rd ⟨63, 4⟩ "r"), tA, ⟨63, 4⟩, "r", by decide, by decide, by decide, tSay_next _ _⟩,
    tA.tSay (.poll ⟨60, 4⟩ 1), tA, ⟨60, 4⟩, 1, by decide, by decide, rfl, by decide, tSay_next _ _⟩

/-- STATUS polled with a report and without. -/
theorem witness_PollRepeatsUntilTheMask :
    (∃ s t r mask, HostNext s (.poll (Reg.access r s.cfg.regBase) mask) t ∧ s.readReg r &&& mask ≠ 0) ∧
      ∃ s t r mask, HostNext s (.poll (Reg.access r s.cfg.regBase) mask) t ∧ s.readReg r &&& mask = 0 :=
  ⟨⟨tA.tReported.tSay (.poll ⟨4, 4⟩ 2), tA.tReported, .status, 2, tSay_next _ _, by decide⟩,
    tA.tBusy.tSay (.poll ⟨4, 4⟩ 2), tA.tBusy, .status, 2, tSay_next _ _, by decide⟩

/-- A store into a running job's range, one that ends at the last address, and one that runs past it. -/
theorem witness_HostStorePlacesItsBytes :
    (∃ s t addr bytes j, HostNext s (.mem addr bytes) t ∧ s.MemInv ∧ s.phase = .busy j ∧
        addr.toNat + bytes.length ≤ 2 ^ 32 ∧ j.src.toNat ≤ addr.toNat + 0 ∧ addr.toNat + 0 < j.src.toNat + j.n.toNat) ∧
      (∃ s t addr bytes, HostNext s (.mem addr bytes) t ∧ s.MemInv ∧ addr.toNat + bytes.length = 2 ^ 32) ∧
      ∃ s t addr bytes, HostNext s (.mem addr bytes) t ∧ s.MemInv ∧ addr.toNat + bytes.length = 2 ^ 32 + 1 :=
  ⟨⟨tA.tBusy.tSay (.mem 0x1004 [1, 0]), tA.tBusy, 0x1004, [1, 0], _, tSay_next _ _, rfl, rfl, by decide, by decide,
      by decide⟩,
    ⟨tA.tSay (.mem 0xFFFFFFFF [1]), tA, 0xFFFFFFFF, [1], tSay_next _ _, rfl, by decide⟩,
    tA.tSay (.mem 0xFFFFFFFF [1, 2]), tA, 0xFFFFFFFF, [1, 2], tSay_next _ _, rfl, by decide⟩

theorem witness_PseudoInstructionsRunOneJob :
    ∃ (i : Instr) (s : State) (seed src n : Word) (r0 r1 r2 r3 : String) (more : List HostStmt),
      s.phase = .idle ∧ s.turns = [] ∧
      s.host =
        hashStmts s.cfg.regBase i seed src n ++ waitStmts s.cfg.regBase ++ resultStmts s.cfg.regBase r0 r1 r2 r3 ++
          ackStmts s.cfg.regBase ++ more ∧
      s.cfg.enabled.getLsbD i.variant.code.toNat = true ∧ src.toNat + n.toNat = 2 ^ 32 ∧ Readable s.cfg src n :=
  ⟨.mh64a true,
    { tA with
      host := hashStmts 0 (.mh64a true) 1 0xFFFFFFFF 1 ++ waitStmts 0 ++ resultStmts 0 "a" "b" "c" "d" ++ ackStmts 0 ++ [] },
    1, 0xFFFFFFFF, 1, "a", "b", "c", "d", [], rfl, rfl, rfl, by decide, by decide, tReadable _ _ _ rfl⟩

/-! ### Witnesses: rules of the whole machine -/

/-- For StepKeepsStatusInvariant, StepKeepsJobInvariant and StepKeepsMemoryCanonical: a state with a running job, and one
with a reported bus error, are good and take a step. -/
theorem witness_StepKeepsInvariants :
    (tA.tBusy.Inv ∧ tA.tBusy.phase ≠ .idle ∧ ∃ t, step tA.tBusy = .next t) ∧
      tA.tReported.Inv ∧ ∃ t, step (tA.tReported.tSay (.wr ⟨4, 4⟩ 2)) = .next t := by
  refine ⟨⟨⟨?_, ⟨?_, by decide⟩, rfl⟩, by decide, _, rfl⟩, ⟨?_, ⟨?_, by decide⟩, rfl⟩, _, rfl⟩
  · unfold State.StatusInv; decide
  · intro j hj
    cases hj
    decide
  · unfold State.StatusInv; decide
  · intro j hj
    cases hj

theorem witness_BuildAndMemoryAreNotTheEnginesToChange : ∃ s t, step s = .next t ∧ t.mem ≠ s.mem :=
  ⟨tA.tSay (.mem 0x1000 [1]), _, rfl, by decide⟩

/-- A job that runs on while the host writes SEED. -/
theorem witness_RunningJobKeepsSnapshotAndResult :
    ∃ s t j j', s.StatusInv ∧ step s = .next t ∧ s.phase = .busy j ∧ t.phase = .busy j' :=
  ⟨tA.tBusy.tSay (.wr ⟨8, 4⟩ 7), _, _, _, by unfold State.StatusInv; decide, rfl, rfl, rfl⟩

theorem witness_PhaseChangesOnlyByCommandCompletionOrReset :
    (∃ s t, step s = .next t ∧ s.phase ≠ .idle ∧ t.phase = .idle) ∧
      ∃ s t, step s = .next t ∧ s.phase = .idle ∧ t.phase ≠ .idle :=
  ⟨⟨tA.tBusy, _, rfl, by decide, rfl⟩, tA.tSay (.wr ⟨0, 4⟩ 0x100), _, rfl, rfl, by decide⟩

/-- RES changes at a completion, at a reset and at a rejection. -/
theorem witness_ResultsChangeOnlyWhenAJobEnds :
    (∃ s t, step s = .next t ∧ t.res ≠ s.res ∧ s.phase ≠ .idle) ∧
      (∃ s t u, ResetNext s u ∧ step s = .next t ∧ t.res ≠ s.res) ∧
      ∃ s t, step s = .next t ∧ t.res ≠ s.res ∧ s.phase = .idle ∧ t.err = true :=
  ⟨⟨tA.tBusy, _, rfl, by decide +kernel, by decide⟩, ⟨tA.tReported.tReset, _, _, tReset_next _, rfl, by decide⟩,
    tA.tReported.tSay (.wr ⟨0, 4⟩ 0x10F), _, rfl, by decide, rfl, rfl⟩

/-- A write to each operand register that changes it. -/
theorem witness_OperandsChangeOnlyByWriteOrReset :
    (∃ s t, step s = .next t ∧ (∀ u, ¬ ResetNext s u) ∧ t.seed ≠ s.seed) ∧
      (∃ s t, step s = .next t ∧ (∀ u, ¬ ResetNext s u) ∧ t.src ≠ s.src) ∧
      ∃ s t, step s = .next t ∧ (∀ u, ¬ ResetNext s u) ∧ t.len ≠ s.len := by
  refine ⟨⟨tA.tSay (.wr ⟨0x08, 4⟩ 9), _, rfl, ?_, by decide⟩, ⟨tA.tSay (.wr ⟨0x0C, 4⟩ 9), _, rfl, ?_, by decide⟩,
    tA.tSay (.wr ⟨0x10, 4⟩ 9), _, rfl, ?_, by decide⟩ <;> exact fun u ⟨ts, h, _⟩ => by cases h

theorem witness_PortReadsOnlyTheRunningJobsRange : ∃ s t, step s = .next t ∧ t.portReads ≠ s.portReads :=
  ⟨tA.tBusy, _, rfl, by decide +kernel⟩

theorem witness_IrqFollowsDoneAndIe :
    (∃ (s : State) (j : Job), s.phase = .busy j) ∧ (∃ i s t, exec i s = .next t ∧ s.phase = .idle ∧ t.phase ≠ .idle) ∧
      (∃ i s t, exec i s = .next t ∧ s.phase = .idle ∧ t.phase = .idle) ∧
      (∃ s t u, step s = .next u ∧ ResetNext s t) ∧
      ∃ s t u w, step s = .next u ∧ HostNext s (.wr (Reg.access .status s.cfg.regBase) w) t ∧ w.getLsbD 1 = true :=
  ⟨⟨tA.tBusy, _, rfl⟩, ⟨.mh2 true, tA, _, rfl, rfl, by decide⟩, ⟨.mh2a true, tA, _, rfl, rfl, rfl⟩,
    ⟨tA.tReset, tA, _, rfl, tReset_next _⟩, tA.tReported.tSay (.wr ⟨4, 4⟩ 2), tA.tReported, _, 2, rfl, tSay_next _ _,
    by decide⟩

/-! ### Witnesses: the datapath -/

theorem witness_RotatesAreRotations : (0 < 1 ∧ 31 < 32) ∧ (0 < 1 ∧ 63 < 64) := by decide

/-- For MixersAndFinalizersFollowTheRules: a tail, and the border counts of the rotates. -/
theorem witness_MixersAndFinalizersFollowTheRules : 0 < 1 ∧ (0 < 31 ∧ 31 < 32) ∧ (0 < 63 ∧ 63 < 64) := by decide

theorem witness_MixersAreBijections : MH2_M.getLsbD 0 = true ∧ MH64A_M.getLsbD 0 = true := by decide

theorem witness_NeutralHashIgnoresNativeOrder : ∃ (s : State) (j : Job), s.phase = .busy j ∧ j.code = .mhn2 :=
  ⟨{ tA with phase := .busy ⟨.mhn2, 0, 0x1000, 5⟩ }, _, rfl, rfl⟩

theorem witness_NeutralEqualsClassicUnderLE : (3#32).toNat < 4 := by decide

/-- a = 3 is the last misalignment, and MHA2 differs from MH2 there under BE (section 3.6). -/
theorem witness_AlignedEqualsClassicUnderLE :
    3 < 4 ∧ mha2 .be [0, 1, 2, 3, 4, 5, 6, 7] 0 8 3 ≠ mh2 .be [0, 1, 2, 3, 4, 5, 6, 7] 0 8 := by decide +kernel

/-- The longest inputs without a full native block: 3, 7 and 15 bytes; and a full-block input of MHN2. -/
theorem witness_OrderMattersOnlyWithAFullBlock :
    (3#32).toNat < 4 ∧ (Job.code ⟨.mhn2, 0, 0, 43⟩ = .mhn2) ∧ (Job.code ⟨.mh64a, 0, 0, 7⟩ = .mh64a ∧ (7#32).toNat < 8) ∧
      (Job.code ⟨.mh3_x86_128, 0, 0, 15⟩ = .mh3_x86_128 ∧ (15#32).toNat < 16) := by decide

theorem witness_NoVariantReadsPastTheInput : tFox.length = (tFoxJob .mha2).n.toNat := by decide

theorem witness_ShortInputLanesCoincide : (8#32).toNat ≤ 8 ∧ (4#32).toNat ≤ 4 := by decide

/-- For WordAssemblyAgrees and MaskedTailEqualsLittleEndianTail. -/
theorem witness_WordAssemblyAgrees : 8 ≤ 8 ∧ 7 < 8 := by decide

end Sys2Proof.Machine
end

section
/-! PROOFS. Scope: a step whose host statement is a command (00_scope.md rule R7). -/

namespace Sys2Proof.Machine

/-- A write at CTRL's own offset issues the instruction that its word decodes to (R106, R301). -/
theorem commandOf_wr_ctrl (base : Nat) (w : Word) :
    commandOf base (.wr (Reg.access .ctrl base) w) = (decode w).toOption := by
  simp only [commandOf, Access.resolve_access]

/-- Settles O4: the statement reaches CTRL, so the host's move is the command its word decodes to. -/
theorem stepRunsTheDecodedCommand : Obligations.StepRunsTheDecodedCommand := by
  intro s t w i hnext hdecode
  have hcommand : commandOf s.cfg.regBase (.wr (Reg.access .ctrl s.cfg.regBase) w) = some i := by
    rw [commandOf_wr_ctrl, hdecode, Except.toOption]
  rw [step_of_hostNext hnext, hcommand]

end Sys2Proof.Machine
end

section
/-! PROOFS. Scope: what one step can do to the block, said once for host accesses, the engine, reset and idle turns
(10_state.md rules R104 to R111; 44_dispatch_job.md rules R800 to R803). -/

namespace Sys2Proof.Machine

/-! ### Command words -/

@[simp] theorem Variant.variant_instr (ie : Bool) (v : Variant) : (v.instr ie).variant = v := by cases v <;> rfl

@[simp] theorem Variant.ie_instr (ie : Bool) (v : Variant) : (v.instr ie).ie = ie := by cases v <;> rfl

/-- The variant found at a code has that code. -/
theorem Variant.code_of_ofCode {c : BitVec 4} {v : Variant} (h : Variant.ofCode c = some v) : v.code = c := by
  unfold Variant.ofCode at h
  split at h <;> cases h <;> exact BitVec.eq_of_toNat_eq (Eq.symm ‹_›)

/-- A word with START and the code of a variant decodes to that variant's command. -/
theorem decode_of_start {w : Word} {v : Variant} (hstart : w.getLsbD 8 = true)
    (hv : Variant.ofCode (cmdVariant w) = some v) : decode w = .ok (v.instr (cmdIe w)) := by
  simp [decode, cmdStart, hstart, hv]

/-- A word that decodes has START, and the fields of its instruction. -/
theorem fields_of_decode {w : Word} {i : Instr} (h : decode w = .ok i) :
    w.getLsbD 8 = true ∧ cmdVariant w = i.variant.code ∧ cmdIe w = i.ie := by
  unfold decode at h
  split at h
  · rename_i hstart
    split at h
    · rename_i v hv
      cases h
      simpa using ⟨hstart, (Variant.code_of_ofCode hv).symm⟩
    · cases h
  · cases h

/-- A CTRL write of a word that decodes is the command of its instruction. -/
theorem State.writeCtrl_of_decode {w : Word} {i : Instr} (h : decode w = .ok i) (s : State) :
    s.writeCtrl w = s.command i.variant.code i.ie := by
  obtain ⟨hstart, hcode, hie⟩ := fields_of_decode h
  simp [State.writeCtrl, cmdStart, hstart, hcode, hie]

/-! ### Outcomes of a command -/

/-- A state accepts a variant exactly when the block is IDLE and both issue checks pass. -/
theorem State.accepts_iff (s : State) (v : Variant) :
    s.Accepts v ↔ s.phase = .idle ∧ Config.active s.cfg v = true ∧ s.rangeOk = true := by
  simp [State.Accepts, Config.active, State.rangeOk]

/-- A command is ignored while BUSY, rejected with error 1 or 2, or accepted, by what the state was before it. -/
theorem State.command_outcomes (v : BitVec 4) (ie : Bool) (s : State) :
    (s.phase ≠ .idle ∧ s.command v ie = s.setCtrl v ie) ∨
      (s.phase = .idle ∧ ∃ e, (e = errIllegalVariant ∨ e = errRange) ∧ s.command v ie = (s.setCtrl v ie).reject e) ∨
      ∃ f, Variant.ofCode v = some f ∧ s.Accepts f ∧ s.command v ie = (s.setCtrl v ie).accept f := by
  obtain ⟨hbusy, hc⟩ | ⟨hidle, hc⟩ := s.command_cases v ie
  · exact .inl ⟨hbusy, hc⟩
  · rw [hc]
    obtain ⟨-, hi⟩ | ⟨_, -, -, -, hi⟩ | ⟨f, hf, hactive, hrange, hi⟩ := (s.setCtrl v ie).issue_cases v
    · exact .inr (.inl ⟨hidle, _, .inl rfl, hi⟩)
    · exact .inr (.inl ⟨hidle, _, .inr rfl, hi⟩)
    · exact .inr (.inr ⟨f, hf, (s.accepts_iff f).mpr ⟨hidle, hactive, hrange⟩, hi⟩)

/-- A CTRL write updates CTRL; a command issued while IDLE is also rejected or accepted. -/
theorem State.writeCtrl_outcomes (w : Word) (s : State) :
    s.writeCtrl w = s.setCtrl (cmdVariant w) (cmdIe w) ∨
      (w.getLsbD 8 = true ∧ s.phase = .idle ∧ ∃ e, (e = errIllegalVariant ∨ e = errRange) ∧
        s.writeCtrl w = (s.setCtrl (cmdVariant w) (cmdIe w)).reject e) ∨
      (w.getLsbD 8 = true ∧ ∃ f, Variant.ofCode (cmdVariant w) = some f ∧ s.Accepts f ∧
        s.writeCtrl w = (s.setCtrl (cmdVariant w) (cmdIe w)).accept f) := by
  obtain ⟨hstart, hw⟩ | ⟨-, hw⟩ := s.writeCtrl_cases w
  · rw [hw]
    obtain ⟨-, hc⟩ | ⟨hidle, hreject⟩ | haccept := s.command_outcomes (cmdVariant w) (cmdIe w)
    · exact .inl hc
    · exact .inr (.inl ⟨hstart, hidle, hreject⟩)
    · exact .inr (.inr ⟨hstart, haccept⟩)
  · exact .inl hw

/-- A command whose variant the state accepts is accepted. -/
theorem State.command_of_accepts {s : State} {v : Variant} (h : s.Accepts v) (ie : Bool) :
    s.command v.code ie = (s.setCtrl v.code ie).accept v := by
  obtain ⟨hidle, hactive, hrange⟩ := (s.accepts_iff v).mp h
  simp [State.command, (State.busy_eq_false_iff s).mpr hidle, State.issue, hactive, hrange]

/-! ### What writes and completions leave unchanged -/

/-- A write clears the report when it acknowledges one. -/
theorem State.acknowledge_of_done {w : Word} {s : State} (hw : w.getLsbD 1 = true) (hdone : s.done = true) :
    s.acknowledge w = { s with done := false, err := false, errcode := 0, errAddr := 0 } := by
  simp [State.acknowledge, hw, hdone]

/-- A STATUS write without bit 1, or without a report, does nothing. -/
theorem State.acknowledge_of_not {w : Word} {s : State} (h : w.getLsbD 1 = false ∨ s.done = false) :
    s.acknowledge w = s := by
  unfold State.acknowledge
  rcases h with h | h <;> rw [h] <;> simp

theorem State.writeReg_ctrl (w : Word) (s : State) : s.writeReg .ctrl w = s.writeCtrl w := rfl

/-- A write changes PHASE only by a command that the state accepts. -/
theorem State.writeReg_phase_cases (r : Reg) (w : Word) (s : State) :
    (s.writeReg r w).phase = s.phase ∨ (r = .ctrl ∧ ∃ i, decode w = .ok i ∧ s.Accepts i.variant) := by
  cases r with
  | ctrl =>
    rw [State.writeReg_ctrl]
    obtain hw | ⟨-, hidle, e, -, hw⟩ | ⟨hstart, f, hf, haccepts, -⟩ := s.writeCtrl_outcomes w
    · exact .inl (by rw [hw, State.setCtrl_phase])
    · exact .inl (by rw [hw, State.reject_phase, hidle])
    · exact .inr ⟨rfl, f.instr (cmdIe w), decode_of_start hstart hf, by simpa using haccepts⟩
  | status => exact .inl (State.acknowledge_phase w s)
  | _ => exact .inl rfl

/-- A write changes RES only by a command that is rejected. -/
theorem State.writeReg_res_cases (r : Reg) (w : Word) (s : State) :
    (s.writeReg r w).res = s.res ∨
      (r = .ctrl ∧ w.getLsbD 8 = true ∧ s.phase = .idle ∧
        ∃ e, s.writeReg r w = (s.setCtrl (cmdVariant w) (cmdIe w)).reject e) := by
  cases r with
  | ctrl =>
    rw [State.writeReg_ctrl]
    obtain hw | ⟨hstart, hidle, e, -, hw⟩ | ⟨-, f, -, -, hw⟩ := s.writeCtrl_outcomes w
    · exact .inl (by rw [hw, State.setCtrl_res])
    · exact .inr ⟨rfl, hstart, hidle, e, hw⟩
    · exact .inl (by rw [hw, State.accept_res, State.setCtrl_res])
  | status => exact .inl (State.acknowledge_res w s)
  | _ => exact .inl rfl

/-- A CTRL write leaves the operands alone. -/
theorem State.writeCtrl_operands (w : Word) (s : State) :
    (s.writeCtrl w).seed = s.seed ∧ (s.writeCtrl w).src = s.src ∧ (s.writeCtrl w).len = s.len := by
  obtain h | ⟨-, -, e, -, h⟩ | ⟨-, f, -, -, h⟩ := s.writeCtrl_outcomes w <;> rw [h] <;> exact ⟨rfl, rfl, rfl⟩

/-- A write sets one operand, or leaves all three alone. -/
theorem State.writeReg_operands (r : Reg) (w : Word) (s : State) :
    (r = .seed ∧ s.writeReg r w = { s with seed := w }) ∨ (r = .src ∧ s.writeReg r w = { s with src := w }) ∨
      (r = .len ∧ s.writeReg r w = { s with len := w }) ∨
      ((s.writeReg r w).seed = s.seed ∧ (s.writeReg r w).src = s.src ∧ (s.writeReg r w).len = s.len) := by
  cases r with
  | seed => exact .inl ⟨rfl, rfl⟩
  | src => exact .inr (.inl ⟨rfl, rfl⟩)
  | len => exact .inr (.inr (.inl ⟨rfl, rfl⟩))
  | ctrl => exact .inr (.inr (.inr (s.writeCtrl_operands w)))
  | status =>
    exact .inr (.inr (.inr ⟨State.acknowledge_seed w s, State.acknowledge_src w s, State.acknowledge_len w s⟩))
  | _ => exact .inr (.inr (.inr ⟨rfl, rfl, rfl⟩))

/-- The engine rests while IDLE. -/
theorem State.engineStep_of_idle {s : State} (h : s.phase = .idle) : s.engineStep = s := by
  simp [State.engineStep, h]

/-- The engine's step leaves the operands alone. -/
theorem State.engineStep_operands (s : State) :
    s.engineStep.seed = s.seed ∧ s.engineStep.src = s.src ∧ s.engineStep.len = s.len := by
  obtain ⟨-, h⟩ | ⟨j, -, ⟨B, -, h⟩ | ⟨fa, -, h⟩⟩ := s.engineStep_cases <;> simp [h]

/-- A completion sets DONE and leaves IE alone. -/
theorem State.engineStep_done_of_busy {s : State} (h : s.phase ≠ .idle) :
    s.engineStep.done = true ∧ s.engineStep.ie = s.ie := by
  obtain ⟨hidle, -⟩ | ⟨j, -, ⟨B, -, he⟩ | ⟨fa, -, he⟩⟩ := s.engineStep_cases
  · exact absurd hidle h
  · simp [he]
  · simp [he]

/-! ### Steps -/

/-- The block's registers and PHASE are the same in both states. -/
structure RegistersKept (s t : State) : Prop where
  cfg : t.cfg = s.cfg
  variant : t.variant = s.variant
  ie : t.ie = s.ie
  phase : t.phase = s.phase
  done : t.done = s.done
  err : t.err = s.err
  errcode : t.errcode = s.errcode
  seed : t.seed = s.seed
  src : t.src = s.src
  len : t.len = s.len
  errAddr : t.errAddr = s.errAddr
  res : t.res = s.res

theorem RegistersKept.trans {s t u : State} (h : RegistersKept s t) (h' : RegistersKept t u) : RegistersKept s u :=
  ⟨h'.cfg.trans h.cfg, h'.variant.trans h.variant, h'.ie.trans h.ie, h'.phase.trans h.phase, h'.done.trans h.done,
    h'.err.trans h.err, h'.errcode.trans h.errcode, h'.seed.trans h.seed, h'.src.trans h.src, h'.len.trans h.len,
    h'.errAddr.trans h.errAddr, h'.res.trans h.res⟩

theorem RegistersKept.of_hostNext {s u : State} {stmt : HostStmt} (h : HostNext s stmt u) : RegistersKept s u := by
  obtain ⟨rest, ts, -, rfl⟩ := h.moved
  constructor <;> rfl

theorem RegistersKept.of_engineNext {s u : State} (h : EngineNext s u) : RegistersKept s u := by
  obtain ⟨ts, rfl⟩ := h.moved
  constructor <;> rfl

/-- A read, a poll and a store keep the block's registers. -/
theorem RegistersKept.of_hostStep {stmt : HostStmt} {s t : State} (h : s.hostStep stmt = .next t)
    (hstmt : ∀ a w, stmt ≠ .wr a w) : RegistersKept s t := by
  obtain ⟨a, w, -, hw, -⟩ | ⟨a, x, r, -, -, rfl⟩ | ⟨a, mask, -, rfl | rfl⟩ | ⟨addr, bytes, -, -, rfl⟩ :=
    State.hostStep_next h
  · exact absurd hw (hstmt a w)
  · constructor <;> rfl
  · constructor <;> rfl
  · constructor <;> rfl
  · constructor <;> simp

/-- A step on a host write to a register's own offset writes that register. -/
theorem step_of_write {s u : State} {r : Reg} {w : Word} (h : HostNext s (.wr (r.access s.cfg.regBase) w) u) :
    step s = .next (u.writeReg r w) := by
  rw [step_of_hostNext h]
  cases hc : commandOf s.cfg.regBase (.wr (r.access s.cfg.regBase) w) with
  | none => simp [State.hostStep, (RegistersKept.of_hostNext h).cfg]
  | some i =>
    obtain ⟨a, w', hstmt, hresolve, hdecode⟩ := commandOf_eq_some hc
    cases hstmt
    rw [Access.resolve_access] at hresolve
    cases hresolve
    exact (exec_eq i u).trans (congrArg _ (u.writeCtrl_of_decode hdecode).symm)

/-- A step on a host read of a register's own offset records the register's value. -/
theorem step_of_read {s u : State} {r : Reg} {x : String} (h : HostNext s (.rd (r.access s.cfg.regBase) x) u) :
    step s = .next (u.observe x (u.readReg r)) := by
  rw [step_of_hostNext h]
  simp [commandOf, State.hostStep, (RegistersKept.of_hostNext h).cfg]

/-- What a step does to the block: a host write to one register, the engine's step, reset, or nothing. -/
theorem step_effects {s t : State} (h : step s = .next t) :
    (∃ r w u, HostNext s (.wr (Reg.access r s.cfg.regBase) w) u ∧ t = u.writeReg r w) ∨
      (∃ u, EngineNext s u ∧ t = u.engineStep) ∨ (∃ u, ResetNext s u ∧ t = u.resetBlock) ∨ RegistersKept s t := by
  obtain ⟨stmt, u, i, hn, hc, rfl⟩ | ⟨stmt, u, hn, hc, hs⟩ | he | hr | ⟨-, ts, rfl⟩ := step_cases h
  · obtain ⟨a, w, rfl, ha, hd⟩ := commandOf_eq_some hc
    obtain rfl := Access.eq_access_of_resolve ha
    exact .inl ⟨.ctrl, w, u, hn, (u.writeCtrl_of_decode hd).symm⟩
  · by_cases hw : ∃ a w, stmt = .wr a w
    · obtain ⟨a, w, rfl⟩ := hw
      obtain ⟨a', w', r, hstmt, ha, rfl⟩ | ⟨_, _, _, hstmt, -⟩ | ⟨_, _, hstmt, -⟩ | ⟨_, _, hstmt, -⟩ :=
        State.hostStep_next hs <;> cases hstmt
      rw [(RegistersKept.of_hostNext hn).cfg] at ha
      obtain rfl := Access.eq_access_of_resolve ha
      exact .inl ⟨r, w, u, hn, rfl⟩
    · exact .inr (.inr (.inr ((RegistersKept.of_hostNext hn).trans
        (.of_hostStep hs fun a w heq => hw ⟨a, w, heq⟩))))
  · exact .inr (.inl he)
  · exact .inr (.inr (.inl hr))
  · exact .inr (.inr (.inr (by constructor <;> rfl)))

end Sys2Proof.Machine
end

section
/-! PROOFS. Scope: the report's invariant on every step (10_state.md rules R107 and R118; 60_exceptions.md R900). -/

namespace Sys2Proof.Machine

/-- The report's invariant speaks of the block's registers alone. -/
theorem RegistersKept.statusInv {s t : State} (h : RegistersKept s t) (hs : s.StatusInv) : t.StatusInv := by
  unfold State.StatusInv
  rw [h.phase, h.done, h.err, h.errcode, h.errAddr]
  exact hs

/-- An error entry with a code of R900 meets the invariant, if only a bus error carries an address. -/
theorem State.endWithError_statusInv {e : BitVec 4} {a : Word}
    (hcode : e = errIllegalVariant ∨ e = errRange ∨ e = errBus) (haddr : a ≠ 0 → e = errBus) (res : ResWords) (s : State) :
    (s.endWithError e a res).StatusInv := by
  have hrange : e ≠ 0 ∧ e.toNat ≤ 3 := by
    rcases hcode with rfl | rfl | rfl <;> decide
  exact ⟨fun h => absurd rfl h, fun _ => rfl, iff_of_true hrange.1 rfl, hrange.2, haddr⟩

theorem State.endWithResult_statusInv (res : ResWords) (s : State) : (s.endWithResult res).StatusInv := by
  simp [State.StatusInv]

theorem State.accept_statusInv (v : Variant) (s : State) : (s.accept v).StatusInv := by
  simp [State.StatusInv]

theorem State.resetBlock_statusInv (s : State) : s.resetBlock.StatusInv := by
  simp [State.StatusInv]

/-- A cleared report meets the invariant in every phase. -/
theorem State.acknowledge_statusInv {s : State} (h : s.StatusInv) (w : Word) : (s.acknowledge w).StatusInv := by
  unfold State.acknowledge
  split
  · simp [State.StatusInv]
  · exact h

theorem State.writeCtrl_statusInv {s : State} (h : s.StatusInv) (w : Word) : (s.writeCtrl w).StatusInv := by
  obtain hw | ⟨-, -, e, he, hw⟩ | ⟨-, f, -, -, hw⟩ := s.writeCtrl_outcomes w <;> rw [hw]
  · exact h
  · exact State.endWithError_statusInv (he.imp_right .inl) (fun h0 => absurd rfl h0) _ _
  · exact State.accept_statusInv f _

theorem State.writeReg_statusInv {s : State} (h : s.StatusInv) (r : Reg) (w : Word) : (s.writeReg r w).StatusInv := by
  cases r with
  | ctrl => exact State.writeCtrl_statusInv h w
  | status => exact State.acknowledge_statusInv h w
  | _ => exact h

theorem State.engineStep_statusInv {s : State} (h : s.StatusInv) : s.engineStep.StatusInv := by
  obtain ⟨-, he⟩ | ⟨j, -, ⟨B, -, he⟩ | ⟨fa, -, he⟩⟩ := s.engineStep_cases <;> rw [he]
  · exact h
  · exact State.endWithResult_statusInv _ _
  · exact State.endWithError_statusInv (.inr (.inr rfl)) (fun _ => rfl) _ _

/-- Settles O32: every effect a step can have on the block keeps the report's invariant. -/
theorem stepKeepsStatusInvariant : Obligations.StepKeepsStatusInvariant := by
  intro s t hs hstep
  obtain ⟨r, w, u, hn, rfl⟩ | ⟨u, hn, rfl⟩ | ⟨u, -, rfl⟩ | hkept := step_effects hstep
  · exact State.writeReg_statusInv ((RegistersKept.of_hostNext hn).statusInv hs) r w
  · exact State.engineStep_statusInv ((RegistersKept.of_engineNext hn).statusInv hs)
  · exact u.resetBlock_statusInv
  · exact hkept.statusInv hs

end Sys2Proof.Machine
end

section
/-! PROOFS. Scope: commands and register accesses: what is accepted, what a command leaves unchanged, what reads show
and which writes do nothing (10_state.md rules R105 to R118; 44_dispatch_job.md rules R801 to R803). -/

namespace Sys2Proof.Machine

/-! ### Commands -/

/-- Settles O5: with both issue checks passed, the command is the acceptance. -/
theorem everyCommandIsAccepted : Obligations.EveryCommandIsAccepted := by
  intro i s h
  rw [exec_eq, State.command_of_accepts h]
  rfl

/-- Settles O9, by the three outcomes of a command. -/
theorem commandFrame : Obligations.CommandFrame := by
  intro i s t h
  rw [exec_eq] at h
  cases h
  obtain ⟨hbusy, hc⟩ | ⟨hidle, e, -, hc⟩ | ⟨f, -, ⟨hidle, -, -⟩, hc⟩ := s.command_outcomes i.variant.code i.ie
  · simp [hc]
  · simp [hc, hidle]
  · simp [hc, hidle]

/-! ### Register writes -/

/-- Settles O24, by the two cases of the acknowledge. -/
theorem statusWriteAcknowledges : Obligations.StatusWriteAcknowledges := by
  intro s t w hn
  have hwrite : step s = .next (t.acknowledge w) := step_of_write hn
  rw [hwrite, ← (RegistersKept.of_hostNext hn).done]
  exact ⟨fun hw hdone => by rw [State.acknowledge_of_done hw hdone], fun h => by rw [State.acknowledge_of_not h]⟩

/-- Settles O25: the step is the register's write. -/
theorem operandWritesSetTheRegister : Obligations.OperandWritesSetTheRegister :=
  fun _ _ _ => ⟨step_of_write, step_of_write, step_of_write⟩

/-- A CTRL write takes START, IE and VARIANT from its word and nothing else (R115, R300). -/
theorem State.writeCtrl_and_mask (w : Word) (s : State) : s.writeCtrl (w &&& 0x0000030F#32) = s.writeCtrl w := by
  have hvariant : cmdVariant (w &&& 0x0000030F#32) = cmdVariant w := by
    refine BitVec.eq_of_getLsbD_eq fun i hi => ?_
    interval_cases i <;> simp [cmdVariant]
  have hstart : cmdStart (w &&& 0x0000030F#32) = cmdStart w := by simp [cmdStart]
  have hie : cmdIe (w &&& 0x0000030F#32) = cmdIe w := by simp [cmdIe]
  simp only [State.writeCtrl, hvariant, hstart, hie]

/-- A STATUS write takes bit 1 from its word and nothing else (R108). -/
theorem State.acknowledge_congr {w w' : Word} (h : w.getLsbD 1 = w'.getLsbD 1) (s : State) :
    s.acknowledge w = s.acknowledge w' := by
  simp only [State.acknowledge, h]

/-! ### The bits of the words read -/

/-- Bit i of CTRL (R106). -/
theorem State.ctrlWord_getLsbD (s : State) (i : Nat) :
    s.ctrlWord.getLsbD i = if i < 4 then s.variant.getLsbD i else if i = 9 then s.ie else false := by
  simp only [State.ctrlWord, BitVec.getLsbD_append, BitVec.getLsbD_ofBool, BitVec.getLsbD_zero]
  grind

/-- Bit i of STATUS (R107). -/
theorem State.statusWord_getLsbD (s : State) (i : Nat) :
    s.statusWord.getLsbD i =
      if i = 0 then s.busy else if i = 1 then s.done else if i = 2 then s.err
      else if 4 ≤ i then s.errcode.getLsbD (i - 4) else false := by
  simp only [State.statusWord, BitVec.getLsbD_append, BitVec.getLsbD_ofBool, BitVec.getLsbD_zero]
  grind

/-- Bit i of CAPS (R114). -/
theorem Config.capsWord_getLsbD (c : Config) (i : Nat) :
    (Config.capsWord c).getLsbD i =
      if i < 9 then c.enabled.getLsbD i else if i = 16 then decide (c.nativeOrder = .be) else false := by
  simp only [Config.capsWord, BitVec.getLsbD_append, BitVec.getLsbD_zero]
  cases c.nativeOrder <;> grind [NativeOrder.beBit]

theorem State.ctrlWord_variant (s : State) : s.ctrlWord.extractLsb' 0 4 = s.variant := by
  refine BitVec.eq_of_getLsbD_eq fun i hi => ?_
  simp [State.ctrlWord_getLsbD, hi]

theorem State.statusWord_errcode (s : State) : s.statusWord.extractLsb' 4 4 = s.errcode := by
  refine BitVec.eq_of_getLsbD_eq fun i hi => ?_
  have h : 4 + i ≠ 0 ∧ 4 + i ≠ 1 ∧ 4 + i ≠ 2 := by omega
  simp [State.statusWord_getLsbD, hi, h]

theorem Config.capsWord_enabled (c : Config) : (Config.capsWord c).extractLsb' 0 9 = c.enabled := by
  refine BitVec.eq_of_getLsbD_eq fun i hi => ?_
  simp [Config.capsWord_getLsbD, hi]

/-- STATUS.BUSY says whether PHASE is BUSY (R112). -/
theorem State.busy_eq_decide (s : State) : s.busy = decide (s.phase ≠ .idle) := by
  rw [Bool.eq_iff_iff, decide_eq_true_iff, State.busy_eq_true_iff]

/-! ### Register reads -/

/-- A register without a writable bit keeps the state on every write. -/
theorem State.writeReg_of_readOnly {r : Reg}
    (hr : r = .errAddr ∨ r = .res0 ∨ r = .res1 ∨ r = .res2 ∨ r = .res3 ∨ r = .caps ∨ ∃ k, r = .reserved k) (w : Word)
    (s : State) : s.writeReg r w = s := by
  rcases hr with rfl | rfl | rfl | rfl | rfl | rfl | ⟨k, rfl⟩ <;> rfl

/-- Reading a register depends on the block's registers alone. -/
theorem RegistersKept.readReg {s t : State} (h : RegistersKept s t) (r : Reg) : t.readReg r = s.readReg r := by
  cases r <;>
    simp [State.readReg, State.ctrlWord, State.statusWord, State.busy, h.cfg, h.variant, h.ie, h.phase, h.done, h.err,
      h.errcode, h.seed, h.src, h.len, h.errAddr, h.res]

/-- The bits of CTRL outside VARIANT and IE read 0. -/
theorem State.ctrlWord_reserved (s : State) {i : Nat} (hi : i ∈ [4, 5, 6, 7, 8] ∨ 10 ≤ i) :
    s.ctrlWord.getLsbD i = false := by
  have h : ¬ i < 4 ∧ i ≠ 9 := by
    simp only [List.mem_cons, List.not_mem_nil, or_false] at hi
    omega
  simp [State.ctrlWord_getLsbD, h]

/-- The bits of STATUS outside BUSY, DONE, ERR and ERRCODE read 0. -/
theorem State.statusWord_reserved (s : State) {i : Nat} (hi : i = 3 ∨ 8 ≤ i) : s.statusWord.getLsbD i = false := by
  rw [State.statusWord_getLsbD]
  rcases hi with rfl | hi
  · rfl
  · have hpast : s.errcode.getLsbD (i - 4) = false := BitVec.getLsbD_of_ge _ _ (by omega)
    have h : i ≠ 0 ∧ i ≠ 1 ∧ i ≠ 2 := by omega
    simp [h, hpast]

/-- The bits of CAPS outside ENABLED and the byte order read 0. -/
theorem Config.capsWord_reserved (c : Config) {i : Nat} (hi : 9 ≤ i ∧ i ≤ 15 ∨ 17 ≤ i) :
    (Config.capsWord c).getLsbD i = false := by
  have h : ¬ i < 9 ∧ i ≠ 16 := by omega
  simp [Config.capsWord_getLsbD, h]

/-- Settles O26: read-only writes, reads, reserved bits and ignored bits, each by its lemma. -/
theorem reservedAndReadOnlyAreInert : Obligations.ReservedAndReadOnlyAreInert := by
  refine ⟨fun _ _ => rfl, fun s t w r hr hn => ?_, fun s t r x hn => ?_, fun s i hi => s.ctrlWord_reserved hi,
    fun s i hi => s.statusWord_reserved hi, fun s w w' h => ?_, fun s w w' h => State.acknowledge_congr h s⟩
  · rw [step_of_write hn, State.writeReg_of_readOnly hr]
  · obtain ⟨rest, ts, -, ht⟩ := hn.moved
    have hobserved : t.observed = s.observed := by rw [ht]
    rw [step_of_read hn, State.observe, hobserved, (RegistersKept.of_hostNext hn).readReg]
  · calc s.writeCtrl w = s.writeCtrl (w &&& 0x0000030F#32) := (s.writeCtrl_and_mask w).symm
      _ = s.writeCtrl (w' &&& 0x0000030F#32) := by rw [h]
      _ = s.writeCtrl w' := s.writeCtrl_and_mask w'

/-- Settles O27: each field of CTRL, STATUS and CAPS by its bits, the other registers by definition. -/
theorem registerReadsShowTheFields : Obligations.RegisterReadsShowTheFields := by
  intro s
  refine ⟨⟨s.ctrlWord_variant, s.ctrlWord_getLsbD 9⟩,
    ⟨(s.statusWord_getLsbD 0).trans s.busy_eq_decide, s.statusWord_getLsbD 1, s.statusWord_getLsbD 2,
      s.statusWord_errcode⟩,
    ⟨Config.capsWord_enabled s.cfg, Config.capsWord_getLsbD s.cfg 16, fun i hi => Config.capsWord_reserved s.cfg hi⟩,
    ⟨rfl, rfl, rfl⟩, rfl, rfl, rfl, rfl, rfl⟩

end Sys2Proof.Machine
end

section
/-! PROOFS. Scope: what may change PHASE, RES and the operands, and the level of irq (10_state.md rules R111, R112, R116
and R119; 44_dispatch_job.md rules R800 to R802). -/

namespace Sys2Proof.Machine

/-! ### Register stability -/

/-- Acceptance is decided by the block's registers. -/
theorem RegistersKept.accepts {s t : State} (h : RegistersKept s t) {v : Variant} (ht : t.Accepts v) : s.Accepts v := by
  unfold State.Accepts at ht
  rwa [h.phase, h.cfg, h.src, h.len] at ht

/-- Settles O38: of the effects of a step, only an accepted command, the engine's completion and reset change PHASE. -/
theorem phaseChangesOnlyByCommandCompletionOrReset : Obligations.PhaseChangesOnlyByCommandCompletionOrReset := by
  intro s t hstep
  by_cases hsame : t.phase = s.phase
  · rw [hsame]
    exact ⟨fun hbusy hidle => absurd hidle hbusy, fun hidle hbusy => absurd hidle hbusy⟩
  obtain ⟨r, w, u, hn, rfl⟩ | ⟨u, hn, rfl⟩ | ⟨u, hn, rfl⟩ | hkept := step_effects hstep
  · have hu := RegistersKept.of_hostNext hn
    obtain ⟨rfl, i, hdecode, haccepts⟩ := (u.writeReg_phase_cases r w).resolve_left fun h => hsame (h.trans hu.phase)
    have hs := hu.accepts haccepts
    exact ⟨fun hbusy _ => absurd hs.1 hbusy, fun _ _ => ⟨w, i, u, hn, hdecode, hs⟩⟩
  · have hu := RegistersKept.of_engineNext hn
    exact ⟨fun _ _ => .inl ⟨u, hn⟩,
      fun hidle _ => absurd (by rw [State.engineStep_of_idle (hu.phase.trans hidle), hu.phase]) hsame⟩
  · exact ⟨fun _ _ => .inr ⟨u, hn⟩, fun _ hbusy => absurd rfl hbusy⟩
  · exact absurd hkept.phase hsame

/-- Settles O39: of the effects of a step, only a rejected command, the engine's completion and reset change RES. -/
theorem resultsChangeOnlyWhenAJobEnds : Obligations.ResultsChangeOnlyWhenAJobEnds := by
  intro s t hstep hres
  obtain ⟨r, w, u, hn, rfl⟩ | ⟨u, hn, rfl⟩ | ⟨u, hn, rfl⟩ | hkept := step_effects hstep
  · have hu := RegistersKept.of_hostNext hn
    obtain ⟨rfl, hstart, hidle, e, hreject⟩ := (u.writeReg_res_cases r w).resolve_left fun h => hres (h.trans hu.res)
    rw [hreject]
    exact .inr (.inr ⟨w, u, hn, hstart, hu.phase ▸ hidle, rfl, rfl, rfl⟩)
  · have hu := RegistersKept.of_engineNext hn
    have hbusy : u.phase ≠ .idle := fun hidle => hres (by rw [State.engineStep_of_idle hidle, hu.res])
    exact .inl ⟨u, hn, hu.phase ▸ hbusy, (State.engineStep_done_of_busy hbusy).1⟩
  · exact .inr (.inl ⟨u, hn⟩)
  · exact absurd hkept.res hres

/-- A step but reset sets one operand to the word written at its offset, or leaves all three alone. -/
theorem step_operands {s t : State} (hstep : step s = .next t) (hreset : ∀ u, ¬ ResetNext s u) :
    (∃ r w u, HostNext s (.wr (Reg.access r s.cfg.regBase) w) u ∧
        (r = .seed ∧ t = { u with seed := w } ∨ r = .src ∧ t = { u with src := w } ∨
          r = .len ∧ t = { u with len := w })) ∨
      (t.seed = s.seed ∧ t.src = s.src ∧ t.len = s.len) := by
  obtain ⟨r, w, u, hn, rfl⟩ | ⟨u, hn, rfl⟩ | ⟨u, hn, rfl⟩ | hkept := step_effects hstep
  · have hu := RegistersKept.of_hostNext hn
    obtain h | h | h | h := u.writeReg_operands r w
    · exact .inl ⟨r, w, u, hn, .inl h⟩
    · exact .inl ⟨r, w, u, hn, .inr (.inl h)⟩
    · exact .inl ⟨r, w, u, hn, .inr (.inr h)⟩
    · exact .inr (by simpa only [hu.seed, hu.src, hu.len] using h)
  · have hu := RegistersKept.of_engineNext hn
    exact .inr (by simpa only [hu.seed, hu.src, hu.len] using u.engineStep_operands)
  · exact absurd hn (hreset u)
  · exact .inr ⟨hkept.seed, hkept.src, hkept.len⟩

/-- Settles O40, by the operand that the step writes. -/
theorem operandsChangeOnlyByWriteOrReset : Obligations.OperandsChangeOnlyByWriteOrReset := by
  intro s t hstep hreset
  obtain ⟨r, w, u, hn, hwrite⟩ | ⟨hseed, hsrc, hlen⟩ := step_operands hstep hreset
  · have hu := RegistersKept.of_hostNext hn
    obtain ⟨rfl, rfl⟩ | ⟨rfl, rfl⟩ | ⟨rfl, rfl⟩ := hwrite
    · exact ⟨fun _ => ⟨_, w, u, hn, rfl, rfl⟩, fun h => absurd hu.src h, fun h => absurd hu.len h⟩
    · exact ⟨fun h => absurd hu.seed h, fun _ => ⟨_, w, u, hn, rfl, rfl⟩, fun h => absurd hu.len h⟩
    · exact ⟨fun h => absurd hu.seed h, fun h => absurd hu.src h, fun _ => ⟨_, w, u, hn, rfl, rfl⟩⟩
  · exact ⟨fun h => absurd hseed h, fun h => absurd hsrc h, fun h => absurd hlen h⟩

/-! ### irq -/

/-- irq is the two bits as read (R119). -/
theorem State.irq_eq_bits (s : State) : s.irq = ((s.readReg .status).getLsbD 1 && (s.readReg .ctrl).getLsbD 9) :=
  (congrArg₂ and (s.statusWord_getLsbD 1) (s.ctrlWord_getLsbD 9)).symm

theorem State.irq_of_done {s : State} (h : s.done = true) : s.irq = s.ie := by
  simp [State.irq, h]

theorem State.irq_of_not_done {s : State} (h : s.done = false) : s.irq = false := by
  simp [State.irq, h]

/-- After a completion irq follows IE. -/
theorem State.engineStep_irq {s : State} (h : s.phase ≠ .idle) : s.engineStep.irq = s.ie := by
  obtain ⟨hdone, hie⟩ := State.engineStep_done_of_busy h
  rw [State.irq_of_done hdone, hie]

/-- After a command issued while IDLE irq is low if it is accepted, and is the command's IE if it is rejected. -/
theorem State.command_irq {s : State} (hidle : s.phase = .idle) (v : BitVec 4) (ie : Bool) :
    ((s.command v ie).phase ≠ .idle → (s.command v ie).irq = false) ∧
      ((s.command v ie).phase = .idle → (s.command v ie).irq = ie) := by
  obtain ⟨hbusy, -⟩ | ⟨-, e, -, hc⟩ | ⟨f, -, -, hc⟩ := s.command_outcomes v ie
  · exact absurd hidle hbusy
  · rw [hc]
    exact ⟨fun h => absurd rfl h, fun _ => State.irq_of_done rfl⟩
  · rw [hc]
    exact ⟨fun _ => State.irq_of_not_done rfl, fun h => by cases h⟩

/-- A STATUS write with bit 1 leaves no report, whether there was one or not. -/
theorem State.acknowledge_done {w : Word} (hw : w.getLsbD 1 = true) (s : State) : (s.acknowledge w).done = false := by
  cases hdone : s.done with
  | true => rw [State.acknowledge_of_done hw hdone]
  | false => rw [State.acknowledge_of_not (.inr hdone), hdone]

/-- Settles O42: irq as its two bits, and its level after each operation that sets or clears DONE. -/
theorem irqFollowsDoneAndIe : Obligations.IrqFollowsDoneAndIe := by
  refine ⟨State.irq_eq_bits, fun s j hj => State.engineStep_irq (by simp [hj]), fun i s t h hidle => ?_,
    fun s t u hstep => ⟨fun hn => ?_, fun w hn hw => ?_⟩⟩
  · rw [exec_eq] at h
    cases h
    exact State.command_irq hidle _ _
  · rw [step_of_resetNext hn] at hstep
    cases hstep
    exact State.irq_of_not_done rfl
  · rw [step_of_write hn] at hstep
    cases hstep
    exact State.irq_of_not_done (t.acknowledge_done hw)

end Sys2Proof.Machine
end

section
/-! PROOFS. Scope: what a step can do to the input space, the build and the input port's record (20_memory.md rules
R200 to R209; 44_dispatch_job.md rule R804). -/

namespace Sys2Proof.Machine

/-! ### What leaves the input alone -/

/-- The build, the input space and the record of the port's reads are the same in both states. -/
structure InputKept (s t : State) : Prop where
  cfg : t.cfg = s.cfg
  mem : t.mem = s.mem
  portReads : t.portReads = s.portReads

theorem InputKept.trans {s t u : State} (h : InputKept s t) (h' : InputKept t u) : InputKept s u :=
  ⟨h'.cfg.trans h.cfg, h'.mem.trans h.mem, h'.portReads.trans h.portReads⟩

theorem InputKept.of_hostNext {s u : State} {stmt : HostStmt} (h : HostNext s stmt u) : InputKept s u := by
  obtain ⟨rest, ts, -, rfl⟩ := h.moved
  exact ⟨rfl, rfl, rfl⟩

theorem InputKept.of_engineNext {s u : State} (h : EngineNext s u) : InputKept s u := by
  obtain ⟨ts, rfl⟩ := h.moved
  exact ⟨rfl, rfl, rfl⟩

theorem InputKept.of_resetNext {s u : State} (h : ResetNext s u) : InputKept s u := by
  obtain ⟨ts, -, rfl⟩ := h
  exact ⟨rfl, rfl, rfl⟩

/-- No CTRL write, command or not, touches the input. -/
theorem InputKept.writeCtrl (w : Word) (s : State) : InputKept s (s.writeCtrl w) := by
  obtain h | ⟨-, -, e, -, h⟩ | ⟨-, f, -, -, h⟩ := s.writeCtrl_outcomes w <;> rw [h] <;> exact ⟨rfl, rfl, rfl⟩

/-- No register write touches the input. -/
theorem InputKept.writeReg (r : Reg) (w : Word) (s : State) : InputKept s (s.writeReg r w) := by
  cases r with
  | ctrl => exact .writeCtrl w s
  | status => exact ⟨State.acknowledge_cfg w s, State.acknowledge_mem w s, State.acknowledge_portReads w s⟩
  | _ => exact ⟨rfl, rfl, rfl⟩

/-- The engine writes neither the build nor the input space. -/
theorem State.engineStep_cfg_mem (s : State) : s.engineStep.cfg = s.cfg ∧ s.engineStep.mem = s.mem := by
  obtain ⟨-, h⟩ | ⟨j, -, ⟨B, -, h⟩ | ⟨fa, -, h⟩⟩ := s.engineStep_cases <;> simp [h]

/-- What a step does to the input: a host store, the engine's step, or nothing. -/
theorem step_input_cases {s t : State} (hstep : step s = .next t) :
    (∃ addr bytes u, HostNext s (.mem addr bytes) u ∧ addr.toNat + bytes.length ≤ 2 ^ 32 ∧
        t = u.storeBytes addr.toNat bytes) ∨
      (∃ u, EngineNext s u ∧ t = u.engineStep) ∨ InputKept s t := by
  obtain ⟨stmt, u, i, hn, hc, rfl⟩ | ⟨stmt, u, hn, -, hs⟩ | he | ⟨u, hn, rfl⟩ | ⟨-, ts, rfl⟩ := step_cases hstep
  · obtain ⟨a, w, -, -, hdecode⟩ := commandOf_eq_some hc
    rw [← u.writeCtrl_of_decode hdecode]
    exact .inr (.inr ((InputKept.of_hostNext hn).trans (.writeCtrl w u)))
  · have hu := InputKept.of_hostNext hn
    obtain ⟨a, w, r, -, -, rfl⟩ | ⟨a, x, r, -, -, rfl⟩ | ⟨a, mask, -, rfl | rfl⟩ | ⟨addr, bytes, rfl, hfits, rfl⟩ :=
      State.hostStep_next hs
    · exact .inr (.inr (hu.trans (.writeReg r w u)))
    · exact .inr (.inr (hu.trans ⟨rfl, rfl, rfl⟩))
    · exact .inr (.inr hu)
    · exact .inr (.inr (hu.trans ⟨rfl, rfl, rfl⟩))
    · exact .inl ⟨addr, bytes, u, hn, hfits, rfl⟩
  · exact .inr (.inl he)
  · exact .inr (.inr ((InputKept.of_resetNext hn).trans ⟨rfl, rfl, rfl⟩))
  · exact .inr (.inr ⟨rfl, rfl, rfl⟩)

/-- Settles O34: only a store changes memory, and a store that fits the input space keeps the canonical form. -/
theorem stepKeepsMemoryCanonical : Obligations.StepKeepsMemoryCanonical := by
  intro s t hs hstep
  unfold State.MemInv at hs ⊢
  obtain ⟨addr, bytes, u, hn, hfits, rfl⟩ | ⟨u, hn, rfl⟩ | hkept := step_input_cases hstep
  · rw [State.storeBytes_mem, (InputKept.of_hostNext hn).mem]
    exact Memory.writeBytes_wf hs hfits
  · rw [u.engineStep_cfg_mem.2, (InputKept.of_engineNext hn).mem]
    exact hs
  · rw [hkept.mem]
    exact hs

/-- Settles O36: of the effects of a step on the input, only a store changes memory, and none changes the build. -/
theorem buildAndMemoryAreNotTheEnginesToChange : Obligations.BuildAndMemoryAreNotTheEnginesToChange := by
  intro s t hstep
  obtain ⟨addr, bytes, u, hn, -, rfl⟩ | ⟨u, hn, rfl⟩ | hkept := step_input_cases hstep
  · exact ⟨by rw [State.storeBytes_cfg, (InputKept.of_hostNext hn).cfg], fun _ => ⟨addr, bytes, u, hn⟩⟩
  · obtain ⟨hcfg, hmem⟩ := u.engineStep_cfg_mem
    have hu := InputKept.of_engineNext hn
    exact ⟨hcfg.trans hu.cfg, fun hne => absurd (hmem.trans hu.mem) hne⟩
  · exact ⟨hkept.cfg, fun hne => absurd hkept.mem hne⟩

/-! ### The data phase -/

/-- With every address answering, the data phase reads the whole range and yields its bytes (R203, R804). -/
theorem dataPhase_of_busOk {c : Config} (m : Memory) {a n : Nat} (h : ∀ k, k < n → Config.busOk c (a + k) = true) :
    dataPhase c m a n = ⟨addressesFrom a n, .ok (inputBytes m a n)⟩ := by
  induction n generalizing a with
  | zero => rfl
  | succ n ih =>
    have hfirst : Config.busOk c a = true := h 0 n.succ_pos
    have hrest := ih (a := a + 1) fun k hk => Nat.succ_add_eq_add_succ a k ▸ h (k + 1) (Nat.succ_lt_succ hk)
    rw [dataPhase_succ_ok n hfirst, hrest, addressesFrom_succ, inputBytes_succ, DataOutcome.cons_ok]

/-- The data phase ends at the least address that does not answer, which is the last one it reads (R205, R804). -/
theorem dataPhase_of_fault {c : Config} (m : Memory) {a n k : Nat} (hk : k < n)
    (hok : ∀ i, i < k → Config.busOk c (a + i) = true) (hfail : Config.busOk c (a + k) = false) :
    dataPhase c m a n = ⟨addressesFrom a (k + 1), .fault (a + k)⟩ := by
  induction n generalizing a k with
  | zero => exact absurd hk k.not_lt_zero
  | succ n ih =>
    cases k with
    | zero => exact dataPhase_succ_fault n hfail
    | succ k =>
      have hfirst : Config.busOk c a = true := hok 0 k.succ_pos
      rw [← Nat.succ_add_eq_add_succ] at hfail
      have hrest := ih (Nat.lt_of_succ_lt_succ hk)
        (fun i hi => Nat.succ_add_eq_add_succ a i ▸ hok (i + 1) (Nat.succ_lt_succ hi)) hfail
      rw [dataPhase_succ_ok n hfirst, hrest, addressesFrom_succ a, DataOutcome.cons_fault,
        Nat.succ_add_eq_add_succ]

/-- Settles O13: the two outcomes of the data phase. -/
theorem dataPhaseReadsInOrder : Obligations.DataPhaseReadsInOrder :=
  fun _ m _ _ => ⟨dataPhase_of_busOk m, fun _ => dataPhase_of_fault m⟩

/-- Whatever BUS_OK says, the data phase reads a first part of the range. -/
theorem dataPhase_reads (c : Config) (m : Memory) (a n : Nat) :
    ∃ k, k ≤ n ∧ (dataPhase c m a n).reads = addressesFrom a k := by
  by_cases hall : ∀ k, k < n → Config.busOk c (a + k) = true
  · exact ⟨n, le_rfl, by rw [dataPhase_of_busOk m hall]⟩
  · have hfail : ∃ k, k < n ∧ Config.busOk c (a + k) = false := by simpa using hall
    obtain ⟨hk, hbad⟩ := Nat.find_spec hfail
    refine ⟨Nat.find hfail + 1, hk, ?_⟩
    rw [dataPhase_of_fault m hk (fun i hi => ?_) hbad]
    simpa [hi.trans hk] using Nat.find_min hfail hi

/-- The engine's step adds the data phase's reads to the port's record. -/
theorem State.engineStep_portReads {s : State} {j : Job} (h : s.phase = .busy j) :
    s.engineStep.portReads = s.portReads ++ (dataPhase s.cfg s.mem j.src.toNat j.n.toNat).reads := by
  obtain ⟨hidle, -⟩ | ⟨j', hj', ⟨B, -, he⟩ | ⟨fa, -, he⟩⟩ := s.engineStep_cases
  · simp [h] at hidle
  all_goals
    cases h.symm.trans hj'
    rw [he]
    rfl

/-- Settles O41: only the engine's step on a running job reads, and it reads what the data phase reads. -/
theorem portReadsOnlyTheRunningJobsRange : Obligations.PortReadsOnlyTheRunningJobsRange := by
  intro s t hstep hreads
  obtain ⟨addr, bytes, u, hn, -, rfl⟩ | ⟨u, hn, rfl⟩ | hkept := step_input_cases hstep
  · exact absurd (by rw [State.storeBytes_portReads, (InputKept.of_hostNext hn).portReads]) hreads
  · have hphase := (RegistersKept.of_engineNext hn).phase
    have hu := (InputKept.of_engineNext hn).portReads
    cases hp : u.phase with
    | idle => exact absurd (by rw [State.engineStep_of_idle hp, hu]) hreads
    | busy j =>
      obtain ⟨k, hk, hread⟩ := dataPhase_reads u.cfg u.mem j.src.toNat j.n.toNat
      exact ⟨u, j, k, hn, hphase ▸ hp, hk, by rw [State.engineStep_portReads hp, hread, hu]⟩
  · exact absurd hkept.portReads hreads

/-! ### Completion -/

/-- A job whose whole range answers ends with a result (R806). -/
theorem State.engineStep_of_readable {s : State} {j : Job} (hj : s.phase = .busy j) (h : Readable s.cfg j.src j.n) :
    s.engineStep =
      State.endWithResult (s.resOr (dispatch s.cfg.nativeOrder (inputBytes s.mem j.src.toNat j.n.toNat) j))
        { s.useDraws with portReads := s.portReads ++ addressesFrom j.src.toNat j.n.toNat } := by
  simp only [State.engineStep, hj, State.completeJob, dataPhase_of_busOk s.mem h]

/-- A job whose range has a least address that does not answer ends with the bus error there (R807). -/
theorem State.engineStep_of_fault {s : State} {j : Job} {k : Nat} (hj : s.phase = .busy j) (hk : k < j.n.toNat)
    (hok : ∀ i, i < k → Config.busOk s.cfg (j.src.toNat + i) = true)
    (hfail : Config.busOk s.cfg (j.src.toNat + k) = false) :
    s.engineStep =
      State.endWithError errBus (BitVec.ofNat 32 (j.src.toNat + k)) (s.resOr .zero)
        { s.useDraws with portReads := s.portReads ++ addressesFrom j.src.toNat (k + 1) } := by
  simp only [State.engineStep, hj, State.completeJob, dataPhase_of_fault s.mem hk hok hfail]

/-- A disturbed job uses four draws, and its mark is cleared (log 9). -/
theorem State.useDraws_of_disturbed {s : State} (h : s.disturbed = true) :
    s.useDraws = { s with draws := s.draws + 4, disturbed := false } := by
  simp [State.useDraws, h]

/-- Moving past the engine's turn leaves the mark and the count of draws alone. -/
theorem EngineNext.disturbed_draws {s u : State} (h : EngineNext s u) :
    u.disturbed = s.disturbed ∧ u.draws = s.draws := by
  obtain ⟨ts, rfl⟩ := h.moved
  exact ⟨rfl, rfl⟩

/-- Settles O16: the two ends of a job, with the RES words of a disturbed one left as they come. -/
theorem disturbedJobStillCompletes : Obligations.DisturbedJobStillCompletes := by
  intro s t j hn hj hdisturbed
  obtain ⟨hmark, hdraws⟩ := hn.disturbed_draws
  have hinput := InputKept.of_engineNext hn
  rw [← (RegistersKept.of_engineNext hn).phase] at hj
  rw [step_of_engineNext hn, ← hinput.cfg, ← hinput.portReads, ← hdraws]
  have huse := State.useDraws_of_disturbed (hmark.trans hdisturbed)
  constructor
  · intro hread
    exact ⟨_, by rw [State.engineStep_of_readable hj hread, huse]; rfl⟩
  · intro k hk hok hfail
    exact ⟨_, by rw [State.engineStep_of_fault hj hk hok hfail, huse]; rfl⟩

end Sys2Proof.Machine
end

section
/-! PROOFS. Scope: the outcome of a host access inside the register window (20_memory.md rule R207). -/

namespace Sys2Proof.Machine

/-- The statement is a register access at `a`: a write, a read or a poll (R306). -/
def HostStmt.Accesses (stmt : HostStmt) (a : Access) : Prop :=
  (∃ w, stmt = .wr a w) ∨ (∃ x, stmt = .rd a x) ∨ ∃ mask, stmt = .poll a mask

/-- An access that reaches no register stops the step with its reason. -/
theorem step_of_resolve_error {s t : State} {stmt : HostStmt} {a : Access} {e : Refusal} (hn : HostNext s stmt t)
    (hstmt : stmt.Accesses a) (ha : Access.resolve s.cfg.regBase a = .error e) : step s = .refused e := by
  rw [step_of_hostNext hn]
  obtain ⟨w, rfl⟩ | ⟨x, rfl⟩ | ⟨mask, rfl⟩ := hstmt <;>
    simp [commandOf, State.hostStep, (RegistersKept.of_hostNext hn).cfg, ha]

/-- An access that reaches a register answers a next state. -/
theorem step_of_resolve_ok {s t : State} {stmt : HostStmt} {a : Access} {r : Reg} (hn : HostNext s stmt t)
    (hstmt : stmt.Accesses a) (ha : Access.resolve s.cfg.regBase a = .ok r) : ∃ u, step s = .next u := by
  rw [step_of_hostNext hn]
  cases commandOf s.cfg.regBase stmt with
  | some i => exact ⟨_, exec_eq i t⟩
  | none =>
    rw [← (RegistersKept.of_hostNext hn).cfg] at ha
    obtain ⟨w, rfl⟩ | ⟨x, rfl⟩ | ⟨mask, rfl⟩ := hstmt <;> simp [State.hostStep, ha]

/-- Inside the window, an access that is narrow, wide or misaligned reaches no register (R207). -/
theorem Access.resolve_of_undefined {base : Nat} {a : Access} (hlo : base ≤ a.addr) (hhi : a.addr < base + 64)
    (h : a.bytes ≠ 4 ∨ (a.addr - base) % 4 ≠ 0) : Access.resolve base a = .error .undefinedAccess := by
  have hinside : ¬ (a.addr < base ∨ base + 64 ≤ a.addr) := by omega
  unfold Access.resolve
  rw [if_neg hinside]
  by_cases hwidth : a.bytes = 4
  · simp [hwidth, Reg.ofOffset, h.resolve_left (not_not_intro hwidth)]
  · rw [if_pos hwidth]

/-- Settles O28, by the register that the access reaches or does not reach. -/
theorem undefinedAccessIsRefused : Obligations.UndefinedAccessIsRefused := by
  intro s t a hlo hhi
  refine ⟨fun hundefined => ?_, fun hwidth haligned => ?_⟩
  · have ha := Access.resolve_of_undefined hlo hhi hundefined
    exact ⟨fun w hn => step_of_resolve_error hn (.inl ⟨w, rfl⟩) ha,
      fun x hn => step_of_resolve_error hn (.inr (.inl ⟨x, rfl⟩)) ha,
      fun mask hn => step_of_resolve_error hn (.inr (.inr ⟨mask, rfl⟩)) ha⟩
  · have hwf : a.wf s.cfg.regBase = true := by simp [Access.wf, hlo, hhi, hwidth, haligned]
    obtain ⟨r, ha⟩ := Access.resolve_of_wf hwf
    exact ⟨fun w hn => step_of_resolve_ok hn (.inl ⟨w, rfl⟩) ha,
      fun x hn => step_of_resolve_ok hn (.inr (.inl ⟨x, rfl⟩)) ha,
      fun mask hn => step_of_resolve_ok hn (.inr (.inr ⟨mask, rfl⟩)) ha⟩

end Sys2Proof.Machine
end

section
/-! PROOFS. Scope: what the functions read of their input: the order of bytes inside full blocks, and no byte past the
length (20_memory.md rules R203, R210 and R211; 40_primitives.md rule R404). -/

namespace Sys2Proof.Machine

/-! ### Inputs without a full block

Where no native word is read, the byte order has no effect (R210, R211). -/

theorem mh2_order {n : Word} (h : n.toNat < 4) (o o' : NativeOrder) (B : List Byte) (seed : Word) :
    mh2 o B seed n = mh2 o' B seed n := by
  simp only [mh2, Nat.div_eq_of_lt h, blockLoop_zero]

theorem mh2a_order {n : Word} (h : n.toNat < 4) (o o' : NativeOrder) (B : List Byte) (seed : Word) :
    mh2a o B seed n = mh2a o' B seed n := by
  simp only [mh2a, Nat.div_eq_of_lt h, blockLoop_zero]

theorem mha2_order {n : Word} (h : n.toNat < 4) (o o' : NativeOrder) (B : List Byte) (seed : Word) (a : Nat) :
    mha2 o B seed n a = mha2 o' B seed n a := by
  simp only [mha2, h, or_true, if_true, mh2_order h o o']

theorem mh3_32_order {n : Word} (h : n.toNat < 4) (o o' : NativeOrder) (B : List Byte) (seed : Word) :
    mh3_32 o B seed n = mh3_32 o' B seed n := by
  simp only [mh3_32, Nat.div_eq_of_lt h, blockLoop_zero]

theorem mh64a_order {n : Word} (h : n.toNat < 8) (o o' : NativeOrder) (B : List Byte) (seed : Word) :
    mh64a o B seed n = mh64a o' B seed n := by
  simp only [mh64a, Nat.div_eq_of_lt h, blockLoop_zero]

/-- Below 4 bytes MurmurHash64B has neither a block nor a half block. -/
theorem mh64b_order {n : Word} (h : n.toNat < 4) (o o' : NativeOrder) (B : List Byte) (seed : Word) :
    mh64b o B seed n = mh64b o' B seed n := by
  have hblocks : n.toNat / 8 = 0 := Nat.div_eq_of_lt (by omega)
  have hhalf : ¬ 4 ≤ n.toNat - 8 * 0 := by omega
  simp only [mh64b, hblocks, blockLoop_zero, hhalf, decide_false, Bool.false_eq_true, if_false]

theorem mh3_x86_128_order {n : Word} (h : n.toNat < 16) (o o' : NativeOrder) (B : List Byte) (seed : Word) :
    mh3_x86_128 o B seed n = mh3_x86_128 o' B seed n := by
  simp only [mh3_x86_128, Nat.div_eq_of_lt h, blockLoop_zero]

theorem mh3_x64_128_order {n : Word} (h : n.toNat < 16) (o o' : NativeOrder) (B : List Byte) (seed : Word) :
    mh3_x64_128 o B seed n = mh3_x64_128 o' B seed n := by
  simp only [mh3_x64_128, Nat.div_eq_of_lt h, blockLoop_zero]

/-- Settles O50, by the code: each function reads no native word below its own bound. -/
theorem orderMattersOnlyWithAFullBlock : Obligations.OrderMattersOnlyWithAFullBlock := by
  rintro B ⟨code, seed, src, n⟩ h
  -- At each code the hypothesis is that code's own bound; MHN2 takes no byte order, so its goal closes here.
  cases code <;> simp only [reduceCtorEq, true_and, false_and, or_true, false_or, or_false] at h <;>
    simp only [dispatch]
  case mh2 => rw [mh2_order h .le .be]
  case mh2a => rw [mh2a_order h .le .be]
  case mha2 => rw [mha2_order h .le .be]
  case mh3_32 => rw [mh3_32_order h .le .be]
  case mh64a => rw [mh64a_order (by omega) .le .be]
  case mh64b => rw [mh64b_order h .le .be]
  case mh3_x86_128 => rw [mh3_x86_128_order (by omega) .le .be]
  case mh3_x64_128 => rw [mh3_x64_128_order (by omega) .le .be]

/-! ### Words of inputs that agree -/

theorem sumBelow_congr {f g : Nat → DWord} {c : Nat} (hfg : ∀ j, j < c → f j = g j) :
    sumBelow f c = sumBelow g c := by
  induction c with
  | zero => rfl
  | succ c ih => rw [sumBelow, sumBelow, ih fun j hj => hfg j (by omega), hfg c (by omega)]

/-- Two byte lists agree at every position below n. -/
def AgreeBelow (n : Nat) (B B' : List Byte) : Prop := ∀ k, k < n → byteAt B k = byteAt B' k

/-- Bytes put behind an input change none of its own. -/
theorem agreeBelow_append (B junk : List Byte) : AgreeBelow B.length (B ++ junk) B := fun _ => byteAt_append

section
variable {n : Nat} {B B' : List Byte} (h : AgreeBelow n B B')
include h

theorem AgreeBelow.rdn32_eq (o : NativeOrder) {p : Nat} (hp : p + 4 ≤ n) : rdn32 o B p = rdn32 o B' p := by
  have hbyte : ∀ j, j < 4 → byte32 B (p + j) = byte32 B' (p + j) := fun j hj => by
    rw [byte32, byte32, h (p + j) (by omega)]
  have h0 : byte32 B p = byte32 B' p := hbyte 0 (by omega)
  cases o <;> simp [rdn32, h0, hbyte]

theorem AgreeBelow.rdn64_eq (o : NativeOrder) {p : Nat} (hp : p + 8 ≤ n) : rdn64 o B p = rdn64 o B' p := by
  have hbyte : ∀ j, j < 8 → byte64 B (p + j) = byte64 B' (p + j) := fun j hj => by
    rw [byte64, byte64, h (p + j) (by omega)]
  cases o <;> exact sumBelow_congr fun j hj => by rw [hbyte j hj]

/-- A lane of the tail may start past the input if it has no byte there. -/
theorem AgreeBelow.le_eq {p c : Nat} (hp : ∀ j, j < c → p + j < n) : le B p c = le B' p c :=
  sumBelow_congr fun j hj => by rw [byte64, byte64, h (p + j) (hp j hj)]

theorem AgreeBelow.le32_eq {p c : Nat} (hp : ∀ j, j < c → p + j < n) : le32 B p c = le32 B' p c := by
  rw [le32, h.le_eq hp, le32]

theorem AgreeBelow.tail2_eq (x : Word) {p c : Nat} (hp : p + c ≤ n) : tail2 B x p c = tail2 B' x p c := by
  rw [tail2, h.le32_eq fun j hj => by omega, tail2]

theorem AgreeBelow.tail64a_eq (x : DWord) {p c : Nat} (hp : p + c ≤ n) : tail64a B x p c = tail64a B' x p c := by
  rw [tail64a, h.le_eq fun j hj => by omega, tail64a]

end

/-- Loops whose step reads inside the block it is given agree, over the blocks below n. -/
theorem blockLoop_agree {σ : Type} (n : Nat) {size p blocks : Nat} {f g : σ → Nat → σ}
    (hstep : ∀ acc q, q + size ≤ n → f acc q = g acc q) (hfit : p + size * blocks ≤ n) (acc : σ) :
    blockLoop size f blocks p acc = blockLoop size g blocks p acc :=
  blockLoop_congr (fun acc k hk => hstep acc _ (by
    have := Nat.mul_le_mul_left size (Nat.succ_le_of_lt hk)
    rw [Nat.mul_succ] at this
    omega)) acc

/-! ### Functions of inputs that agree -/

section
variable {n : Word} {B B' : List Byte} (h : AgreeBelow n.toNat B B')
include h

theorem AgreeBelow.mh2_eq (o : NativeOrder) (seed : Word) : mh2 o B seed n = mh2 o B' seed n := by
  simp only [mh2]
  rw [blockLoop_agree n.toNat (fun x p hp => by rw [h.rdn32_eq o hp]) (by omega), h.tail2_eq _ (by omega)]

theorem AgreeBelow.mh2a_eq (o : NativeOrder) (seed : Word) : mh2a o B seed n = mh2a o B' seed n := by
  simp only [mh2a]
  rw [blockLoop_agree n.toNat (fun x p hp => by rw [h.rdn32_eq o hp]) (by omega), h.le32_eq fun j hj => by omega]

theorem AgreeBelow.mhn2_eq (seed : Word) : mhn2 B seed n = mhn2 B' seed n := by
  simp only [mhn2]
  rw [blockLoop_agree n.toNat (fun x p hp => by rw [h.le32_eq fun j hj => by omega]) (by omega),
    h.tail2_eq _ (by omega)]

theorem AgreeBelow.mha2Step_eq (o : NativeOrder) (a : Nat) (ht : Word × Word) {p : Nat} (hp : p + 4 ≤ n.toNat) :
    mha2Step o B a ht p = mha2Step o B' a ht p := by
  rw [mha2Step, h.rdn32_eq o hp, mha2Step]

theorem AgreeBelow.mha2Tail_eq (a : Nat) (x t : Word) {p q : Nat} (hp : p + q ≤ n.toNat) :
    mha2Tail B a x t p q = mha2Tail B' a x t p q := by
  simp only [mha2Tail]
  split
  · rw [h.le32_eq fun j hj => by omega, h.tail2_eq _ (by omega)]
  · rw [h.le32_eq fun j hj => by omega]

theorem AgreeBelow.mha2_eq (o : NativeOrder) (seed : Word) (a : Nat) : mha2 o B seed n a = mha2 o B' seed n a := by
  simp only [mha2]
  split
  · exact h.mh2_eq o seed
  · rw [h.le32_eq fun j hj => by omega, blockLoop_agree n.toNat (fun ht p hp => h.mha2Step_eq o a ht hp) (by omega),
      h.mha2Tail_eq _ _ _ (by omega)]

theorem AgreeBelow.mh3_32_eq (o : NativeOrder) (seed : Word) : mh3_32 o B seed n = mh3_32 o B' seed n := by
  simp only [mh3_32]
  rw [blockLoop_agree n.toNat (fun x p hp => by rw [h.rdn32_eq o hp]) (by omega), h.le32_eq fun j hj => by omega]

theorem AgreeBelow.mh64a_eq (o : NativeOrder) (seed : Word) : mh64a o B seed n = mh64a o B' seed n := by
  simp only [mh64a]
  rw [blockLoop_agree n.toNat (fun x p hp => by rw [h.rdn64_eq o hp]) (by omega), h.tail64a_eq _ (by omega)]

theorem AgreeBelow.mh64b_eq (o : NativeOrder) (seed : Word) : mh64b o B seed n = mh64b o B' seed n := by
  simp only [mh64b]
  rw [blockLoop_agree n.toNat (fun x p hp => by rw [h.rdn32_eq o (by omega), h.rdn32_eq o (by omega)]) (by omega)]
  by_cases hhalf : 4 ≤ n.toNat - 8 * (n.toNat / 8)
  · simp only [hhalf, decide_true, if_true]
    rw [h.rdn32_eq o (by omega), h.tail2_eq _ (by omega)]
  · simp only [hhalf, decide_false, Bool.false_eq_true, if_false]
    rw [h.tail2_eq _ (by omega)]

theorem AgreeBelow.x86_128Block_eq (o : NativeOrder) (l : Lanes4) {p : Nat} (hp : p + 16 ≤ n.toNat) :
    x86_128Block o B l p = x86_128Block o B' l p := by
  simp only [x86_128Block, h.rdn32_eq o (p := p) (by omega), h.rdn32_eq o (p := p + 4) (by omega),
    h.rdn32_eq o (p := p + 8) (by omega), h.rdn32_eq o (p := p + 12) (by omega)]

/-- A lane of the tail reads only the tail bytes that fall in it. -/
theorem AgreeBelow.laneWord {p c : Nat} (hp : p + c ≤ n.toNat) (start width : Nat) :
    le32 B (p + start) (laneBytes c start width) = le32 B' (p + start) (laneBytes c start width) :=
  h.le32_eq fun j hj => by
    unfold laneBytes at hj
    omega

theorem AgreeBelow.x86_128Tail_eq (l : Lanes4) {p c : Nat} (hp : p + c ≤ n.toNat) :
    x86_128Tail B l p c = x86_128Tail B' l p c := by
  have h0 := h.laneWord hp 0 4
  rw [Nat.add_zero] at h0
  simp only [x86_128Tail, h0, h.laneWord hp]

theorem AgreeBelow.mh3_x86_128_eq (o : NativeOrder) (seed : Word) :
    mh3_x86_128 o B seed n = mh3_x86_128 o B' seed n := by
  simp only [mh3_x86_128]
  rw [blockLoop_agree n.toNat (fun l p hp => h.x86_128Block_eq o l hp) (by omega), h.x86_128Tail_eq _ (by omega)]

theorem AgreeBelow.x64_128Block_eq (o : NativeOrder) (l : Lanes2) {p : Nat} (hp : p + 16 ≤ n.toNat) :
    x64_128Block o B l p = x64_128Block o B' l p := by
  simp only [x64_128Block, h.rdn64_eq o (p := p) (by omega), h.rdn64_eq o (p := p + 8) (by omega)]

theorem AgreeBelow.x64_128Tail_eq (l : Lanes2) {p c : Nat} (hp : p + c ≤ n.toNat) :
    x64_128Tail B l p c = x64_128Tail B' l p c := by
  simp only [x64_128Tail, h.le_eq (p := p) (c := min c 8) fun j hj => by omega,
    h.le_eq (p := p + 8) (c := c - 8) fun j hj => by omega]

theorem AgreeBelow.mh3_x64_128_eq (o : NativeOrder) (seed : Word) :
    mh3_x64_128 o B seed n = mh3_x64_128 o B' seed n := by
  simp only [mh3_x64_128]
  rw [blockLoop_agree n.toNat (fun l p hp => h.x64_128Block_eq o l hp) (by omega), h.x64_128Tail_eq _ (by omega)]

end

/-- The result depends on no byte at or past the job's length. -/
theorem AgreeBelow.dispatch_eq {B B' : List Byte} {j : Job} (h : AgreeBelow j.n.toNat B B') (o : NativeOrder) :
    dispatch o B j = dispatch o B' j := by
  obtain ⟨code, seed, src, n⟩ := j
  cases code <;> simp only [dispatch]
  case mh2 => rw [h.mh2_eq]
  case mh2a => rw [h.mh2a_eq]
  case mhn2 => rw [h.mhn2_eq]
  case mha2 => rw [h.mha2_eq]
  case mh3_32 => rw [h.mh3_32_eq]
  case mh64a => rw [h.mh64a_eq]
  case mh64b => rw [h.mh64b_eq]
  case mh3_x86_128 => rw [h.mh3_x86_128_eq]
  case mh3_x64_128 => rw [h.mh3_x64_128_eq]

/-- Settles O51: the input with and without what follows it agree below the length. -/
theorem noVariantReadsPastTheInput : Obligations.NoVariantReadsPastTheInput := by
  intro o B junk j hlen
  exact AgreeBelow.dispatch_eq (hlen ▸ agreeBelow_append B junk) o

end Sys2Proof.Machine
end

section
/-! PROOFS. Scope: the command word: its fields, the decoder's three outcomes and the encoder (30_encoding.md rules
R300 to R303). -/

namespace Sys2Proof.Machine

/-! ### The word with given fields -/

/-- The word with these values of START, IE and VARIANT and zeros in the reserved bits (R300). -/
def commandWord (start ie : Bool) (v : BitVec 4) : Word :=
  (0#22 ++ BitVec.ofBool ie ++ BitVec.ofBool start ++ 0#4 ++ v : BitVec 32)

/-- An encoding is the word with START and the instruction's fields. -/
theorem encode_eq_commandWord (i : Instr) : encode i = commandWord true i.ie i.variant.code := rfl

theorem commandWord_getLsbD (start ie : Bool) (v : BitVec 4) (k : Nat) :
    (commandWord start ie v).getLsbD k =
      if k < 4 then v.getLsbD k else if k = 8 then start else if k = 9 then ie else false := by
  simp only [commandWord, BitVec.getLsbD_append, BitVec.getLsbD_ofBool, BitVec.getLsbD_zero]
  grind

@[simp] theorem cmdStart_commandWord (start ie : Bool) (v : BitVec 4) : cmdStart (commandWord start ie v) = start :=
  commandWord_getLsbD start ie v 8

@[simp] theorem cmdIe_commandWord (start ie : Bool) (v : BitVec 4) : cmdIe (commandWord start ie v) = ie :=
  commandWord_getLsbD start ie v 9

@[simp] theorem cmdVariant_commandWord (start ie : Bool) (v : BitVec 4) :
    cmdVariant (commandWord start ie v) = v := by
  refine BitVec.eq_of_getLsbD_eq fun k hk => ?_
  simp [cmdVariant, commandWord_getLsbD, hk]

/-- Words with given fields are equal exactly if the fields are. -/
theorem commandWord_inj {start start' ie ie' : Bool} {v v' : BitVec 4} :
    commandWord start ie v = commandWord start' ie' v' ↔ start = start' ∧ ie = ie' ∧ v = v' := by
  refine ⟨fun h => ⟨?_, ?_, ?_⟩, fun ⟨hstart, hie, hv⟩ => by rw [hstart, hie, hv]⟩
  · simpa using congrArg cmdStart h
  · simpa using congrArg cmdIe h
  · simpa using congrArg cmdVariant h

/-- The mask keeps exactly bits 9, 8 and 3:0. -/
theorem commandMask_getLsbD : ∀ k < 32, (0x0000030F#32).getLsbD k = decide (k < 4 ∨ k = 8 ∨ k = 9) := by decide

/-- Masked to START, IE and VARIANT, a word is the word with its fields. -/
theorem and_commandMask (w : Word) : w &&& 0x0000030F#32 = commandWord (cmdStart w) (cmdIe w) (cmdVariant w) := by
  refine BitVec.eq_of_getLsbD_eq fun k hk => ?_
  rw [BitVec.getLsbD_and, commandMask_getLsbD k hk, commandWord_getLsbD]
  by_cases hv : k < 4
  · simp [cmdVariant, hv]
  · by_cases h8 : k = 8
    · simp [cmdStart, h8]
    · by_cases h9 : k = 9
      · simp [cmdIe, h9]
      · simp [hv, h8, h9]

/-! ### The decoder's outcomes -/

@[simp] theorem Instr.instr_variant (i : Instr) : i.variant.instr i.ie = i := by cases i <;> rfl

/-- The codes of no variant are those from 9 on (R303). -/
theorem Variant.ofCode_eq_none_iff (v : BitVec 4) : Variant.ofCode v = none ↔ 9 ≤ v.toNat := by
  revert v
  decide

/-- A word has no START, or carries a reserved code, or decodes to the command of its fields (R301, R302, R303). -/
theorem decode_cases (w : Word) :
    (cmdStart w = false ∧ decode w = .error .noStart) ∨
      (cmdStart w = true ∧ 9 ≤ (cmdVariant w).toNat ∧ decode w = .error (.reservedCode (cmdVariant w))) ∨
      ∃ v : Variant, cmdStart w = true ∧ cmdVariant w = v.code ∧ decode w = .ok (v.instr (cmdIe w)) := by
  cases hstart : cmdStart w with
  | false => exact .inl ⟨rfl, by simp [decode, hstart]⟩
  | true =>
    cases hv : Variant.ofCode (cmdVariant w) with
    | none => exact .inr (.inl ⟨rfl, (Variant.ofCode_eq_none_iff _).mp hv, by simp [decode, hstart, hv]⟩)
    | some v => exact .inr (.inr ⟨v, rfl, (Variant.code_of_ofCode hv).symm, decode_of_start hstart hv⟩)

/-- A word decodes to an instruction exactly if it has START and the instruction's fields. -/
theorem decode_eq_ok_iff (w : Word) (i : Instr) :
    decode w = .ok i ↔ cmdStart w = true ∧ cmdIe w = i.ie ∧ cmdVariant w = i.variant.code := by
  constructor
  · intro h
    obtain ⟨hstart, hcode, hie⟩ := fields_of_decode h
    exact ⟨hstart, hie, hcode⟩
  · rintro ⟨hstart, hie, hcode⟩
    rw [decode_of_start hstart (by rw [hcode, Variant.ofCode_code]), hie, Instr.instr_variant]

/-- Settles O1: both sides of each clause compare START, IE and VARIANT. -/
theorem decodeAndEncodeAgree : Obligations.DecodeAndEncodeAgree := by
  refine ⟨fun i => ?_, fun w i => ?_⟩
  · rw [decode_eq_ok_iff, encode_eq_commandWord]
    simp
  · rw [decode_eq_ok_iff, and_commandMask, encode_eq_commandWord, commandWord_inj]

/-- Settles O2, by the decoder's three outcomes. -/
theorem decoderRejectsByName : Obligations.DecoderRejectsByName := by
  intro w
  change (_ ↔ cmdStart w = false) ∧ ∀ v, (_ ↔ cmdStart w = true ∧ cmdVariant w = v ∧ 9 ≤ v.toNat)
  obtain ⟨hstart, hd⟩ | ⟨hstart, hcode, hd⟩ | ⟨v, hstart, hcode, hd⟩ := decode_cases w
  · simp [hstart, hd]
  · refine ⟨by simp [hstart, hd], fun v => ?_⟩
    rw [hd]
    constructor
    · intro h
      cases h
      exact ⟨hstart, rfl, hcode⟩
    · rintro ⟨-, rfl, -⟩
      rfl
  · refine ⟨by simp [hstart, hd], fun v' => ?_⟩
    have hlegal : ¬ 9 ≤ v.code.toNat := by
      rw [← Variant.ofCode_eq_none_iff, Variant.ofCode_code]
      exact Option.some_ne_none v
    rw [hd, hcode]
    exact iff_of_false (by simp) fun ⟨_, hv, hreserved⟩ => hlegal (hv ▸ hreserved)

/-- Settles O3: the decoder runs on each of the words. -/
theorem commandWordsDecode : Obligations.CommandWordsDecode :=
  ⟨rfl, rfl, rfl, rfl, rfl, rfl, rfl, rfl, rfl, rfl, rfl, rfl, rfl, rfl⟩

end Sys2Proof.Machine
end

section
/-! PROOFS. Scope: CTRL writes by their START bit and code: plain configuration writes, and commands with an illegal
code (30_encoding.md rules R301 and R303). -/

namespace Sys2Proof.Machine

/-- A word is a command, of an instruction or with a reserved code, exactly if it has START (R301). -/
theorem isCommand_iff (w : Word) :
    (∃ i, decode w = .ok i) ∨ (∃ v, decode w = .error (.reservedCode v)) ↔ cmdStart w = true := by
  obtain ⟨hstart, hd⟩ | ⟨hstart, -, hd⟩ | ⟨v, hstart, -, hd⟩ := decode_cases w <;> simp [hstart, hd]

/-- A CTRL write without START sets the word's fields and does nothing more. -/
theorem State.writeCtrl_of_noStart {w : Word} (h : cmdStart w = false) (s : State) :
    s.writeCtrl w = s.setCtrl (cmdVariant w) (cmdIe w) := by
  simp [State.writeCtrl, h]

/-- A CTRL write with START while IDLE sets the word's fields and issues its code. -/
theorem State.writeCtrl_of_idle {w : Word} {s : State} (hstart : cmdStart w = true) (hidle : s.phase = .idle) :
    s.writeCtrl w = (s.setCtrl (cmdVariant w) (cmdIe w)).issue (cmdVariant w) := by
  simp [State.writeCtrl, hstart, State.command, (State.busy_eq_false_iff s).mpr hidle]

/-- Settles O23: the decoder's outcomes, and the write without START. -/
theorem ctrlWriteWithoutStartIsNoCommand : Obligations.CtrlWriteWithoutStartIsNoCommand := by
  refine ⟨isCommand_iff, fun s t w hn hstart => ?_⟩
  rw [step_of_write hn, State.writeReg_ctrl, State.writeCtrl_of_noStart hstart]
  rfl

/-- The code is of no variant, or of one that is not active, exactly if it is 9 or more or its ENABLED bit is 0. -/
theorem illegalCode_iff (c : Config) (v : BitVec 4) :
    (Variant.ofCode v = none ∨ ∃ f, Variant.ofCode v = some f ∧ Config.active c f = false) ↔
      9 ≤ v.toNat ∨ c.enabled.getLsbD v.toNat = false := by
  rw [← Variant.ofCode_eq_none_iff]
  cases hf : Variant.ofCode v with
  | none => simp
  | some f => simp [Config.active, Variant.code_of_ofCode hf]

/-- Issuing a code keeps VARIANT as the write left it. -/
theorem State.issue_variant (v : BitVec 4) (s : State) : (s.issue v).variant = s.variant := by
  obtain ⟨-, h⟩ | ⟨f, -, -, -, h⟩ | ⟨f, -, -, -, h⟩ := s.issue_cases v <;> simp [h]

/-- Issuing a code ends in the report of error 1 exactly if the code is reserved or inactive (R303, R802). -/
theorem State.issue_reports_illegal_iff (v : BitVec 4) (s : State) :
    ((s.issue v).done = true ∧ (s.issue v).err = true ∧ (s.issue v).errcode = 1 ∧ (s.issue v).phase = .idle) ↔
      9 ≤ v.toNat ∨ s.cfg.enabled.getLsbD v.toNat = false := by
  rw [← illegalCode_iff]
  obtain ⟨hillegal, h⟩ | ⟨f, hf, hactive, -, h⟩ | ⟨f, hf, hactive, -, h⟩ := s.issue_cases v <;> rw [h]
  · exact iff_of_true ⟨rfl, rfl, rfl, rfl⟩ hillegal
  · exact iff_of_false (by simp [errRange]) (by simp [hf, hactive])
  · exact iff_of_false (by simp) (by simp [hf, hactive])

/-- Settles O8: the step is the issue of the word's code. -/
theorem reservedAndInactiveCodesAreRejected : Obligations.ReservedAndInactiveCodesAreRejected := by
  intro s t w hn hidle hstart
  have hkept := RegistersKept.of_hostNext hn
  refine ⟨_, step_of_write hn, ?_⟩
  rw [State.writeReg_ctrl, State.writeCtrl_of_idle hstart (hkept.phase.trans hidle), ← hkept.cfg]
  exact ⟨State.issue_variant _ _, State.issue_reports_illegal_iff _ _⟩

end Sys2Proof.Machine
end

section
/-! PROOFS. Scope: the host's polls and stores (30_encoding.md rule R306; 20_memory.md rules R200 and R209). -/

namespace Sys2Proof.Machine

/-! ### POLL -/

/-- A step on a host poll of a register's own offset: the poll is over, or is the next statement again. -/
theorem step_of_poll {s u : State} {r : Reg} {mask : Word}
    (h : HostNext s (.poll (r.access s.cfg.regBase) mask) u) :
    step s = .next (if u.readReg r &&& mask ≠ 0 then u else { u with host := s.host }) := by
  obtain ⟨rest, ts, hhost, hu⟩ := h.moved
  have hback : HostStmt.poll (r.access s.cfg.regBase) mask :: u.host = s.host := by rw [hhost, hu]
  rw [step_of_hostNext h]
  simp [commandOf, State.hostStep, (RegistersKept.of_hostNext h).cfg, hback]

/-- Settles O29: moving past the statement leaves the register's value alone. -/
theorem pollRepeatsUntilTheMask : Obligations.PollRepeatsUntilTheMask := by
  intro s t r mask hn
  rw [step_of_poll hn, (RegistersKept.of_hostNext hn).readReg r]
  exact ⟨fun hset => by rw [if_pos hset], fun hclear => by rw [if_neg (not_not_intro hclear)]⟩

/-! ### MEM -/

/-- Stored bytes leave every address before and after them alone. -/
theorem Memory.read_writeBytes_outside {m : Memory} {a a' : Nat} {bytes : List Byte} (h : Memory.wf m = true)
    (hfits : a + bytes.length ≤ 2 ^ 32) (ha : a' < a ∨ a + bytes.length ≤ a') :
    Memory.read (Memory.writeBytes m a bytes) a' = Memory.read m a' := by
  induction bytes generalizing m a with
  | nil => rfl
  | cons b bs ih =>
    simp only [List.length_cons] at hfits ha
    calc Memory.read (Memory.writeBytes (m.write a b) (a + 1) bs) a'
      _ = Memory.read (m.write a b) a' := ih (Memory.write_wf h (by omega)) (by omega) (by omega)
      _ = Memory.read m a' := Memory.read_write_other h (by omega)

/-- Stored bytes are read back at consecutive addresses. -/
theorem Memory.read_writeBytes_inside {m : Memory} {a k : Nat} {bytes : List Byte} (h : Memory.wf m = true)
    (hfits : a + bytes.length ≤ 2 ^ 32) (hk : k < bytes.length) :
    Memory.read (Memory.writeBytes m a bytes) (a + k) = bytes[k] := by
  induction bytes generalizing m a k with
  | nil => exact absurd hk k.not_lt_zero
  | cons b bs ih =>
    simp only [List.length_cons] at hfits hk
    have hwf : Memory.wf (m.write a b) = true := Memory.write_wf h (by omega)
    cases k with
    | zero => exact (Memory.read_writeBytes_outside hwf (by omega) (by omega)).trans (Memory.read_write_same h)
    | succ k =>
      rw [← Nat.succ_add_eq_add_succ]
      exact ih hwf (by omega) (by omega)

/-- The overlap test of R209 says that one of the addresses lies in the job's range. -/
theorem Job.meets_iff (j : Job) (a count : Nat) :
    j.meets a count = true ↔ ∃ k, k < count ∧ j.src.toNat ≤ a + k ∧ a + k < j.src.toNat + j.n.toNat := by
  simp only [Job.meets, Bool.and_eq_true, decide_eq_true_eq]
  constructor
  · rintro ⟨⟨⟨hcount, hn⟩, hbelow⟩, habove⟩
    exact ⟨j.src.toNat - a, by omega, by omega, by omega⟩
  · rintro ⟨k, hk, hlo, hhi⟩
    omega

/-- A store sets the mark if one of its bytes lies in a running job's range (R209; log 9). -/
theorem State.storeBytes_disturbed_iff (a : Nat) (bytes : List Byte) (s : State) :
    (s.storeBytes a bytes).disturbed = true ↔ s.disturbed = true ∨
      ∃ j k, s.phase = .busy j ∧ k < bytes.length ∧ j.src.toNat ≤ a + k ∧ a + k < j.src.toNat + j.n.toNat := by
  unfold State.storeBytes
  cases hp : s.phase with
  | idle => simp
  | busy j => simp [Job.meets_iff]

/-- A store changes memory and the mark, and nothing else. -/
theorem State.storeBytes_frame (a : Nat) (bytes : List Byte) (s : State) :
    { s.storeBytes a bytes with mem := s.mem, disturbed := s.disturbed } = s := by
  unfold State.storeBytes
  split <;> rfl

/-- A step on a host store: the store, or the fault if it runs past the input space. -/
theorem step_of_store {s u : State} {addr : Word} {bytes : List Byte} (h : HostNext s (.mem addr bytes) u) :
    step s =
      if addr.toNat + bytes.length ≤ 2 ^ 32 then .next (u.storeBytes addr.toNat bytes)
      else .fault .storePastInputSpace :=
  step_of_hostNext h

/-- Settles O30, by the laws of stored bytes and of the mark. -/
theorem hostStorePlacesItsBytes : Obligations.HostStorePlacesItsBytes := by
  intro s t addr bytes hn hwf
  have hmem := (InputKept.of_hostNext hn).mem
  have hphase := (RegistersKept.of_hostNext hn).phase
  have hmark : t.disturbed = s.disturbed := by
    obtain ⟨rest, ts, -, ht⟩ := hn.moved
    rw [ht]
  refine ⟨fun hfits => ⟨t.storeBytes addr.toNat bytes, ?_, fun k hk => ?_, fun a ha => ?_, ?_, ?_⟩, fun hpast => ?_⟩
  · rw [step_of_store hn, if_pos hfits]
  · rw [State.storeBytes_mem, hmem, Memory.read_writeBytes_inside hwf hfits hk]
  · rw [State.storeBytes_mem, hmem, Memory.read_writeBytes_outside hwf hfits ha]
  · rw [State.storeBytes_disturbed_iff, hmark, hphase]
  · exact t.storeBytes_frame addr.toNat bytes
  · rw [step_of_store hn, if_neg (Nat.not_le.mpr hpast)]

end Sys2Proof.Machine
end
section
/-! PROOFS. Scope: the pseudo-instructions under the default schedule: HASH, the completion, WAIT, RESULT and ACK, each as
the first steps of a run (30_encoding.md rules R306 and R307; log 1). -/

namespace Sys2Proof.Machine

/-! ### Runs -/

/-- `k` steps from `s` end in the next state `u`. -/
def RunsTo (k : Nat) (s u : State) : Prop := Host.Core.run core k s = .next u

theorem RunsTo.zero (s : State) : RunsTo 0 s s := rfl

/-- A run is its first step and the run from there. -/
theorem RunsTo.of_step {k : Nat} {s t u : State} (h : step s = .next t) (hrun : RunsTo k t u) : RunsTo (k + 1) s u := by
  have hcore : core.step s = .next t := h
  simp only [RunsTo, Host.Core.run, hcore]
  exact hrun

/-- With the default schedule the host moves while the block is IDLE. -/
theorem HostNext.of_default {s : State} {stmt : HostStmt} {rest : List HostStmt} (hidle : s.phase = .idle)
    (hturns : s.turns = []) (hhost : s.host = stmt :: rest) : HostNext s stmt { s with host := rest } :=
  ⟨rest, hhost, .inr ⟨hturns, hidle, rfl⟩⟩

/-- DONE set, STATUS meets WAIT's mask. -/
theorem State.statusWord_and_done {s : State} (h : s.done = true) : s.statusWord &&& 0x2#32 ≠ 0 := by
  intro hzero
  have hbit : (s.statusWord &&& 0x2#32).getLsbD 1 = true := by
    rw [BitVec.getLsbD_and, s.statusWord_getLsbD 1]
    simp [h]
  rw [hzero] at hbit
  cases hbit

section
variable {s u : State} {rest : List HostStmt} {k : Nat} (hidle : s.phase = .idle) (hturns : s.turns = [])
include hidle hturns

/-- A host write takes one step. -/
theorem RunsTo.write {r : Reg} {w : Word} (hhost : s.host = wrReg s.cfg.regBase r w :: rest)
    (hrun : RunsTo k (State.writeReg r w { s with host := rest }) u) : RunsTo (k + 1) s u :=
  .of_step (step_of_write (HostNext.of_default hidle hturns hhost)) hrun

/-- A host read takes one step and records the register's value. -/
theorem RunsTo.read {r : Reg} {x : String} (hhost : s.host = rdReg s.cfg.regBase r x :: rest)
    (hrun : RunsTo k { s with host := rest, observed := s.observed ++ [(x, s.readReg r)] } u) :
    RunsTo (k + 1) s u := by
  have hn := HostNext.of_default hidle hturns hhost
  rw [← (RegistersKept.of_hostNext hn).readReg] at hrun
  exact .of_step (step_of_read hn) hrun

/-! ### The pseudo-instructions -/

/-- HASH takes four steps to the accepted job: the operands are set, then the command is accepted (R307, R803). -/
theorem RunsTo.hash {i : Instr} {seed src n : Word} (hhost : s.host = hashStmts s.cfg.regBase i seed src n ++ rest)
    (henabled : s.cfg.enabled.getLsbD i.variant.code.toNat = true) (hrange : src.toNat + n.toNat ≤ 2 ^ 32)
    (hrun : RunsTo k
      { s with
        host := rest, seed := seed, src := src, len := n, variant := i.variant.code, ie := i.ie
        phase := .busy ⟨i.variant, seed, src, n⟩
        done := false, err := false, errcode := 0, errAddr := 0, disturbed := false } u) :
    RunsTo (k + 4) s u := by
  have haccepts : State.Accepts { s with host := rest, seed := seed, src := src, len := n } i.variant :=
    ⟨hidle, henabled, hrange⟩
  have hcommand := (State.writeCtrl_of_decode (decodeAndEncodeAgree.1 i) _).trans
    (State.command_of_accepts haccepts i.ie)
  exact .write hidle hturns hhost <| .write hidle hturns rfl <| .write hidle hturns rfl <| .write hidle hturns rfl <|
    (congrArg (RunsTo k · u) hcommand).mpr hrun

/-- WAIT takes one step once the job has completed. -/
theorem RunsTo.wait (hdone : s.done = true) (hhost : s.host = waitStmts s.cfg.regBase ++ rest)
    (hrun : RunsTo k { s with host := rest } u) : RunsTo (k + 1) s u :=
  have hn := HostNext.of_default hidle hturns hhost
  .of_step ((pollRepeatsUntilTheMask s _ .status 0x2 hn).1 (State.statusWord_and_done hdone)) hrun

/-- RESULT takes four steps and records the four RES words in order. -/
theorem RunsTo.result {r0 r1 r2 r3 : String} (hhost : s.host = resultStmts s.cfg.regBase r0 r1 r2 r3 ++ rest)
    (hrun : RunsTo k
      { s with
        host := rest
        observed := s.observed ++ [(r0, s.res.w0), (r1, s.res.w1), (r2, s.res.w2), (r3, s.res.w3)] } u) :
    RunsTo (k + 4) s u := by
  refine .read hidle hturns hhost <| .read hidle hturns rfl <| .read hidle hturns rfl <| .read hidle hturns rfl ?_
  simpa [State.readReg] using hrun

/-- ACK takes one step and clears the report. -/
theorem RunsTo.ack (hdone : s.done = true) (hhost : s.host = ackStmts s.cfg.regBase ++ rest)
    (hrun : RunsTo k { s with host := rest, done := false, err := false, errcode := 0, errAddr := 0 } u) :
    RunsTo (k + 1) s u := by
  have hack : State.acknowledge 0x2 { s with host := rest } = _ := State.acknowledge_of_done rfl hdone
  exact .write hidle hturns hhost ((congrArg (RunsTo k · u) hack).mpr hrun)

end

/-- With the default schedule the engine moves while a job runs, and completes a readable one. -/
theorem RunsTo.completion {s u : State} {j : Job} {k : Nat} (hj : s.phase = .busy j) (hturns : s.turns = [])
    (hdisturbed : s.disturbed = false) (hread : Readable s.cfg j.src j.n)
    (hrun : RunsTo k
      (State.endWithResult (dispatch s.cfg.nativeOrder (inputBytes s.mem j.src.toNat j.n.toNat) j)
        { s with portReads := s.portReads ++ addressesFrom j.src.toNat j.n.toNat }) u) : RunsTo (k + 1) s u := by
  have hn : EngineNext s s := .inr ⟨hturns, by simp [hj], rfl⟩
  have hstep := step_of_engineNext hn
  rw [State.engineStep_of_readable hj hread, State.resOr_undisturbed hdisturbed,
    State.useDraws_undisturbed hdisturbed] at hstep
  exact .of_step hstep hrun

/-- Settles O31: HASH, the completion, WAIT, RESULT and ACK, one after the other. -/
theorem pseudoInstructionsRunOneJob : Obligations.PseudoInstructionsRunOneJob := by
  intro i s seed src n r0 r1 r2 r3 more hidle hturns hhost henabled hrange hread
  simp only [List.append_assoc] at hhost
  have hrun : RunsTo 11 s _ :=
    .hash hidle hturns hhost henabled hrange <| .completion rfl hturns rfl hread <| .wait rfl hturns rfl rfl <|
      .result rfl hturns rfl <| .ack rfl hturns rfl rfl (.zero _)
  exact ⟨_, _, hrun, rfl, rfl, rfl, hturns, rfl, rfl, rfl, rfl, rfl, rfl, rfl, rfl, rfl, rfl, rfl⟩

end Sys2Proof.Machine
end

section
/-! PROOFS. Scope: the rotates, mixers and finalizers (40_primitives.md rules R405 to R417): the rules' expressions, and
which of them are bijections. -/

namespace Sys2Proof.Machine

/-! ### The rules' expressions -/

theorem rotl32_eq_rotateLeft (x : Word) {r : Nat} (hr : r < 32) : rotl32 x r = x.rotateLeft r := by
  rw [rotl32, BitVec.rotateLeft_def, Nat.mod_eq_of_lt hr]

theorem rotl64_eq_rotateLeft (x : DWord) {r : Nat} (hr : r < 64) : rotl64 x r = x.rotateLeft r := by
  rw [rotl64, BitVec.rotateLeft_def, Nat.mod_eq_of_lt hr]

/-- Settles O43: a count inside the width is its own remainder by the width. -/
theorem rotatesAreRotations : Obligations.RotatesAreRotations :=
  ⟨fun x _ _ hr => rotl32_eq_rotateLeft x hr, fun x _ _ hr => rotl64_eq_rotateLeft x hr⟩

theorem tail2_of_pos (B : List Byte) (h : Word) (p : Nat) {c : Nat} (hc : 0 < c) :
    tail2 B h p c = (h ^^^ le32 B p c) * MH2_M := if_neg (by omega)

theorem tail64a_of_pos (B : List Byte) (h : DWord) (p : Nat) {c : Nat} (hc : 0 < c) :
    tail64a B h p c = (h ^^^ le B p c) * MH64A_M := if_neg (by omega)

/-- Settles O56: the mixers and finalizers are their expressions as they stand, the tail steps split on c, and the key
mixers rest on the rotates. -/
theorem mixersAndFinalizersFollowTheRules : Obligations.MixersAndFinalizersFollowTheRules := by
  refine ⟨fun h k => ⟨rfl, rfl⟩, fun B h p c => ⟨tail2_zero B h p, tail2_of_pos B h p⟩, fun h k => ⟨rfl, rfl⟩,
    fun B h p c => ⟨tail64a_zero B h p, tail64a_of_pos B h p⟩, fun h1 h2 => rfl, fun k ca cb r _ hr => ?_,
    fun k ca cb r _ hr => ?_, fun h => rfl, fun h => rfl⟩
  · rw [kmix32, rotl32_eq_rotateLeft _ hr]
  · rw [kmix64, rotl64_eq_rotateLeft _ hr]

/-! ### Bijections -/

/-- An odd number is a unit modulo a power of two, so a product with it can be cancelled. -/
theorem mul_odd_bijective {w : Nat} {c : BitVec w} (hc : c.getLsbD 0 = true) :
    Function.Bijective fun x : BitVec w => x * c := by
  have hodd : c.toNat % 2 = 1 := by simpa [BitVec.getLsbD, Nat.testBit_zero] using hc
  have hcoprime : (2 ^ w).gcd c.toNat = 1 :=
    Nat.Coprime.pow_left w (Nat.coprime_two_left.mpr (Nat.odd_iff.mpr hodd))
  refine Finite.injective_iff_bijective.mp fun x y hxy => BitVec.eq_of_toNat_eq ?_
  have hmod : x.toNat * c.toNat ≡ y.toNat * c.toNat [MOD 2 ^ w] := by
    simpa only [Nat.ModEq, BitVec.toNat_mul] using congrArg BitVec.toNat hxy
  exact (hmod.cancel_right_of_coprime hcoprime).eq_of_lt_of_lt x.isLt y.isLt

/-- A word that its own shift to the right leaves unchanged is 0. -/
theorem eq_zero_of_shiftRight_eq {w r : Nat} (hr : 0 < r) {z : BitVec w} (h : z >>> r = z) : z = 0#w := by
  have hnat : z.toNat / 2 ^ r = z.toNat := by
    simpa only [BitVec.toNat_ushiftRight, Nat.shiftRight_eq_div_pow] using congrArg BitVec.toNat h
  by_contra hz
  have hpos : 0 < z.toNat := Nat.pos_of_ne_zero fun h0 => hz (BitVec.eq_of_toNat_eq h0)
  exact absurd hnat (Nat.div_lt_self hpos (Nat.one_lt_two_pow hr.ne')).ne

/-- If two words have one image, their difference x ^^^ y is its own shift to the right. -/
theorem xorShift_bijective {w r : Nat} (hr : 0 < r) : Function.Bijective fun x : BitVec w => x ^^^ x >>> r := by
  refine Finite.injective_iff_bijective.mp fun x y (hxy : x ^^^ x >>> r = y ^^^ y >>> r) => ?_
  have hdiff : (x ^^^ y) >>> r = x ^^^ y := by
    rw [← BitVec.xor_eq_zero_iff, BitVec.ushiftRight_xor_distrib]
    calc x >>> r ^^^ y >>> r ^^^ (x ^^^ y) = (x ^^^ x >>> r) ^^^ (y ^^^ y >>> r) := by ac_rfl
      _ = 0#w := by rw [hxy, BitVec.xor_self]
  exact BitVec.xor_eq_zero_iff.mp (eq_zero_of_shiftRight_eq hr hdiff)

theorem fmix32_bijective : Function.Bijective fmix32 :=
  (xorShift_bijective (by decide)).comp <| (mul_odd_bijective (c := 0xC2B2AE35#32) rfl).comp <|
    (xorShift_bijective (r := 13) (by decide)).comp <| (mul_odd_bijective (c := 0x85EBCA6B#32) rfl).comp <|
      xorShift_bijective (r := 16) (by decide)

theorem fmix64_bijective : Function.Bijective fmix64 :=
  (xorShift_bijective (by decide)).comp <| (mul_odd_bijective (c := 0xC4CEB9FE1A85EC53#64) rfl).comp <|
    (xorShift_bijective (r := 33) (by decide)).comp <| (mul_odd_bijective (c := 0xFF51AFD7ED558CCD#64) rfl).comp <|
      xorShift_bijective (r := 33) (by decide)

@[simp] theorem fmix32_zero : fmix32 0 = 0 := by decide

@[simp] theorem fmix64_zero : fmix64 0 = 0 := by decide

/-- Settles O46: the finalizers are compositions of xor-shifts and odd multiplications. -/
theorem mixersAreBijections : Obligations.MixersAreBijections :=
  ⟨fun _ => mul_odd_bijective, fun _ => mul_odd_bijective, by simp [MH2_M], by simp [MH64A_M], fmix32_bijective,
    fmix32_zero, fmix64_bijective, fmix64_zero⟩

end Sys2Proof.Machine
end

section
/-! PROOFS. Scope: the assembled words (40_primitives.md rules R400 to R404): how the assembly rules agree with each
other and with the input bytes, and the masked forms of the tail. -/

namespace Sys2Proof.Machine

/-! ### The assembly rules -/

theorem le32_four_eq_rdn32 (B : List Byte) (i : Nat) : le32 B i 4 = rdn32 .le B i := by
  refine BitVec.eq_of_getLsbD_eq fun k hk => ?_
  rw [le32_getLsbD B i (by omega), rdn32_getLsbD .le B i hk, if_pos (by omega)]

/-- Under LE the later native 32-bit word is the high half. -/
theorem rdn64_le_eq_append (B : List Byte) (i : Nat) : rdn64 .le B i = rdn32 .le B (i + 4) ++ rdn32 .le B i := by
  refine BitVec.eq_of_getLsbD_eq fun k hk => ?_
  simp only [rdn64_getLsbD .le B i hk, BitVec.getLsbD_append]
  split
  case isTrue hlow => rw [rdn32_getLsbD .le B i hlow]
  case isFalse hhigh =>
    have hbyte : i + 4 + (k - 32) / 8 = i + k / 8 := by omega
    have hbit : (k - 32) % 8 = k % 8 := by omega
    simp only [rdn32_getLsbD .le B (i + 4) (k := k - 32) (by omega), hbyte, hbit]

/-- Under BE the later native 32-bit word is the low half. -/
theorem rdn64_be_eq_append (B : List Byte) (i : Nat) : rdn64 .be B i = rdn32 .be B i ++ rdn32 .be B (i + 4) := by
  refine BitVec.eq_of_getLsbD_eq fun k hk => ?_
  simp only [rdn64_getLsbD .be B i hk, BitVec.getLsbD_append]
  split
  case isTrue hlow =>
    have hbyte : i + 4 + (3 - k / 8) = i + (7 - k / 8) := by omega
    simp only [rdn32_getLsbD .be B (i + 4) hlow, hbyte]
  case isFalse hhigh =>
    have hbyte : 3 - (k - 32) / 8 = 7 - k / 8 := by omega
    have hbit : (k - 32) % 8 = k % 8 := by omega
    simp only [rdn32_getLsbD .be B i (k := k - 32) (by omega), hbyte, hbit]

theorem le_byte (B : List Byte) (i j : Nat) {c : Nat} (hc : c ≤ 8) :
    (le B i c).extractLsb' (8 * j) 8 = if j < c then byteAt B (i + j) else 0 := by
  refine BitVec.eq_of_getLsbD_eq fun k hk => ?_
  have hbyte : (8 * j + k) / 8 = j := by omega
  have hbit : (8 * j + k) % 8 = k := by omega
  have hin : 8 * j + k < 8 * c ↔ j < c := by omega
  simp only [BitVec.getLsbD_extractLsb', hk, decide_true, Bool.true_and, le_getLsbD B i hc, hbyte, hbit, hin]
  split <;> simp

/-- Settles O44: each clause compares the two words bit by bit. -/
theorem wordAssemblyAgrees : Obligations.WordAssemblyAgrees := fun B i =>
  ⟨le32_four_eq_rdn32 B i, rdn64_le_eq_append B i, rdn64_be_eq_append B i, fun _ j hc _ => le_byte B i j hc⟩

/-! ### The masked tail (R404) -/

/-- The mask of the low c bytes. -/
def lowBytesMask (c : Nat) : DWord := BitVec.ofNat 64 (2 ^ (8 * c) - 1)

theorem lowBytesMask_getLsbD (c : Nat) {k : Nat} (hk : k < 64) :
    (lowBytesMask c).getLsbD k = decide (k < 8 * c) := by
  simp only [lowBytesMask, BitVec.getLsbD_ofNat, hk, decide_true, Bool.true_and, Nat.testBit_two_pow_sub_one]

/-- Bit k of byte j of w, put in the opposite byte. -/
theorem reversedByte_getLsbD (w : DWord) {j k : Nat} (hj : j < 8) (hk : k < 64) :
    ((w >>> (8 * j) &&& 0xFF) <<< (8 * (7 - j))).getLsbD k =
      if k / 8 = 7 - j then w.getLsbD (8 * j + k % 8) else false := by
  simp only [BitVec.getLsbD_shiftLeft, hk, decide_true, Bool.true_and, BitVec.getLsbD_and, BitVec.getLsbD_ushiftRight,
    show (0xFF : DWord) = lowBytesMask 1 from rfl, lowBytesMask_getLsbD 1 (k := k - 8 * (7 - j)) (by omega)]
  split
  case isTrue hplace =>
    have hbelow : ¬ k < 8 * (7 - j) := by omega
    have hbit : k - 8 * (7 - j) = k % 8 := by omega
    simp [hbelow, hbit, Nat.mod_lt]
  case isFalse hplace =>
    have hout : k < 8 * (7 - j) ∨ ¬ k - 8 * (7 - j) < 8 * 1 := by omega
    obtain h | h := hout <;> simp [h]

/-- Bit k of the reversed word is the same bit of the opposite byte. -/
theorem byteReverse64_getLsbD (w : DWord) {k : Nat} (hk : k < 64) :
    (byteReverse64 w).getLsbD k = w.getLsbD (8 * (7 - k / 8) + k % 8) := by
  have hsum := sumBelow_getLsbD (f := fun j => (w >>> (8 * j) &&& 0xFF) <<< (8 * (7 - j))) (c := 8) (fun j => 7 - j)
    (fun _ _ _ _ h => by omega) (fun j k hj hk hne => by rw [reversedByte_getLsbD w hj hk, if_neg hne]) k hk
  rw [Bool.eq_iff_iff, byteReverse64, hsum]
  constructor
  · rintro ⟨j, hj, hb⟩
    rw [reversedByte_getLsbD w hj hk] at hb
    split at hb
    case isTrue hplace =>
      have hbyte : 7 - k / 8 = j := by omega
      rwa [hbyte]
    case isFalse => cases hb
  · intro hb
    exact ⟨7 - k / 8, by omega, by rwa [reversedByte_getLsbD w (by omega) hk, if_pos (by omega)]⟩

/-- Reversing the big-endian word gives the little-endian one. -/
theorem byteReverse64_rdn64_be (B : List Byte) (i : Nat) : byteReverse64 (rdn64 .be B i) = rdn64 .le B i := by
  refine BitVec.eq_of_getLsbD_eq fun k hk => ?_
  have hbyte : 7 - (8 * (7 - k / 8) + k % 8) / 8 = k / 8 := by omega
  have hbit : (8 * (7 - k / 8) + k % 8) % 8 = k % 8 := by omega
  simp only [byteReverse64_getLsbD _ hk, rdn64_getLsbD .be B i (k := 8 * (7 - k / 8) + k % 8) (by omega),
    rdn64_getLsbD .le B i hk, hbyte, hbit]

theorem byteReverse64_and (w w' : DWord) : byteReverse64 (w &&& w') = byteReverse64 w &&& byteReverse64 w' := by
  refine BitVec.eq_of_getLsbD_eq fun k hk => ?_
  simp only [byteReverse64_getLsbD _ hk, BitVec.getLsbD_and]

/-- The mask of the high c bytes is the reversal of the mask of the low c bytes. -/
theorem byteReverse64_highBytesMask {c : Nat} (hc : c ≤ 8) :
    byteReverse64 (lowBytesMask c <<< (8 * (8 - c))) = lowBytesMask c := by
  refine BitVec.eq_of_getLsbD_eq fun k hk => ?_
  rw [byteReverse64_getLsbD _ hk, BitVec.getLsbD_shiftLeft, lowBytesMask_getLsbD c hk,
    lowBytesMask_getLsbD c (k := 8 * (7 - k / 8) + k % 8 - 8 * (8 - c)) (by omega)]
  have hin : 8 * (7 - k / 8) + k % 8 < 64 := by omega
  have hhigh : (¬ 8 * (7 - k / 8) + k % 8 < 8 * (8 - c) ∧ 8 * (7 - k / 8) + k % 8 - 8 * (8 - c) < 8 * c) ↔
      k < 8 * c := by omega
  simp only [hin, decide_true, Bool.true_and, ← decide_not, ← Bool.decide_and, hhigh]

/-- The padding holds only zero bytes, so the full-width word of the padded tail is already the tail. -/
theorem rdn64_le_paddedTail (B : List Byte) (p : Nat) {c : Nat} (hc : c ≤ 8) :
    rdn64 .le (paddedTail B p c) 0 = le B p c := by
  refine BitVec.eq_of_getLsbD_eq fun k hk => ?_
  have hbyte : k / 8 < c ↔ k < 8 * c := by omega
  simp only [rdn64_getLsbD .le _ 0 hk, byteAt_paddedTail, Nat.zero_add, hbyte, le_getLsbD B p hc]
  split <;> simp

theorem le_and_lowBytesMask (B : List Byte) (p : Nat) {c : Nat} (hc : c ≤ 8) :
    le B p c &&& lowBytesMask c = le B p c := by
  refine BitVec.eq_of_getLsbD_eq fun k hk => ?_
  rw [BitVec.getLsbD_and, lowBytesMask_getLsbD c hk, le_getLsbD B p hc]
  split
  case isTrue hlow => simp [hlow]
  case isFalse => rfl

/-- Under both orders the handler masks the little-endian word of the padded tail. -/
theorem maskedTail_eq (o : NativeOrder) (B : List Byte) (p c : Nat) :
    maskedTail o B p c = rdn64 .le (paddedTail B p c) 0 &&& lowBytesMask c := by
  cases o with
  | le => rfl
  | be => rw [← byteReverse64_rdn64_be]; rfl

theorem maskedTail_eq_le (o : NativeOrder) (B : List Byte) (p : Nat) {c : Nat} (hc : c ≤ 8) :
    maskedTail o B p c = le B p c := by
  rw [maskedTail_eq, rdn64_le_paddedTail B p hc, le_and_lowBytesMask B p hc]

/-- Masking the high bytes and then reversing is reversing and then masking the low bytes. -/
theorem maskedTailHigh_eq_maskedTail (B : List Byte) (p : Nat) {c : Nat} (hc : c ≤ 8) :
    maskedTailHigh B p c = maskedTail .be B p c := by
  rw [maskedTailHigh, ← lowBytesMask, byteReverse64_and, byteReverse64_highBytesMask hc]
  rfl

/-- The padded tail holds no byte past the tail. -/
theorem paddedTail_take (B : List Byte) (p c : Nat) : paddedTail (B.take (p + c)) p c = paddedTail B p c := by
  rw [paddedTail, paddedTail, List.drop_take, Nat.add_sub_cancel_left, List.take_take, Nat.min_self]

/-- Settles O45: both forms read the padded tail alone, and give le. -/
theorem maskedTailEqualsLittleEndianTail : Obligations.MaskedTailEqualsLittleEndianTail := by
  intro o B p c hc
  have hlow := maskedTail_eq_le o B p hc
  have hhigh : maskedTailHigh B p c = le B p c := by
    rw [maskedTailHigh_eq_maskedTail B p hc, maskedTail_eq_le .be B p hc]
  exact ⟨hlow, hhigh, by simp only [maskedTail, paddedTail_take], by simp only [maskedTailHigh, paddedTail_take]⟩

end Sys2Proof.Machine
end

section
/-! PROOFS. Scope: the nine functions on the empty input (40_primitives.md rule R409; 41_murmurhash2_family.md rules
R501 to R505; 42_murmurhash64.md; 43_murmurhash3.md): no block and no tail, so only seeding and finalizer are left. -/

namespace Sys2Proof.Machine

@[simp] theorem le32_zero (B : List Byte) (p : Nat) : le32 B p 0 = 0 := rfl

@[simp] theorem x86_128Tail_zero (B : List Byte) (l : Lanes4) (p : Nat) : x86_128Tail B l p 0 = l := rfl

@[simp] theorem x64_128Tail_zero (B : List Byte) (l : Lanes2) (p : Nat) : x64_128Tail B l p 0 = l := rfl

section
variable (o : NativeOrder) (B : List Byte) (seed : Word)

theorem mh2_empty : mh2 o B seed 0 = fin2 seed := by
  simp [mh2]

theorem mh2a_empty : mh2a o B seed 0 = fin2 (mix2 (mix2 seed 0) 0) := by
  simp [mh2a]

theorem mhn2_empty : mhn2 B seed 0 = fin2 seed := by
  simp [mhn2]

/-- Below 4 bytes MurmurHashAligned2 is MurmurHash2. -/
theorem mha2_empty (a : Nat) : mha2 o B seed 0 a = fin2 seed :=
  (if_pos (.inr (by decide))).trans (mh2_empty o B seed)

theorem mh3_32_empty : mh3_32 o B seed 0 = fmix32 seed := by
  simp [mh3_32]

theorem mh64a_empty : mh64a o B seed 0 = fin64a (seed.setWidth 64) := by
  simp [mh64a]

theorem mh64b_empty : mh64b o B seed 0 = fin64b seed 0 := by
  simp [mh64b]

theorem mh3_x86_128_empty : mh3_x86_128 o B seed 0 = x86_128Fin ⟨seed, seed, seed, seed⟩ 0 := by
  simp [mh3_x86_128]

theorem mh3_x64_128_empty :
    mh3_x64_128 o B seed 0 = x64_128Fin ⟨seed.setWidth 64, seed.setWidth 64⟩ 0 := by
  simp [mh3_x64_128]

/-- Every finalizer maps the seeding of seed 0 to 0. -/
theorem dispatch_empty_zero (v : Variant) (src : Word) : dispatch o B ⟨v, 0, src, 0⟩ = .zero := by
  -- At each code what is left is that finalizer on the constant 0.
  cases v <;> simp only [dispatch, mh2_empty, mh2a_empty, mhn2_empty, mha2_empty, mh3_32_empty, mh64a_empty,
    mh64b_empty, mh3_x86_128_empty, mh3_x64_128_empty] <;> decide

end

/-- Settles O52, by the lemma of each function. -/
theorem emptyInputValues : Obligations.EmptyInputValues :=
  ⟨fun o seed => ⟨mh2_empty o [] seed, mh2a_empty o [] seed, mhn2_empty [] seed, mha2_empty o [] seed,
      mh3_32_empty o [] seed, mh64a_empty o [] seed, mh64b_empty o [] seed, mh3_x86_128_empty o [] seed,
      mh3_x64_128_empty o [] seed⟩,
    fun o v src => dispatch_empty_zero o [] v src⟩

end Sys2Proof.Machine
end

section
/-! PROOFS. Scope: the MurmurHash2 family against itself (41_murmurhash2_family.md rules R503 to R506): MHN2 does not
depend on the byte order, and under LE MHN2 and MHA2 are MH2. -/

namespace Sys2Proof.Machine

/-! ### MHN2 and the byte order (R503, R504) -/

theorem mhn2_eq_mh2_le (B : List Byte) (seed n : Word) : mhn2 B seed n = mh2 .le B seed n := by
  simp only [mhn2, mh2, le32_four_eq_rdn32]

/-- Settles O48: MHN2's block word is the LE word, and below 4 bytes MH2 has no block. -/
theorem neutralEqualsClassicUnderLE : Obligations.NeutralEqualsClassicUnderLE := fun B seed n =>
  ⟨mhn2_eq_mh2_le B seed n, fun h o => (mhn2_eq_mh2_le B seed n).trans (mh2_order h .le o B seed)⟩

/-- BUS_OK does not look at the byte order, so the data phase does not either. -/
theorem dataPhase_order (c : Config) (o : NativeOrder) (m : Memory) (a n : Nat) :
    dataPhase { c with nativeOrder := o } m a n = dataPhase c m a n := by
  have hbus (a : Nat) : Config.busOk { c with nativeOrder := o } a = Config.busOk c a := rfl
  induction n generalizing a with
  | zero => rfl
  | succ n ih => simp only [dataPhase, hbus, ih]

/-- The dispatch mux gives MHN2 no byte order. -/
theorem dispatch_mhn2_order {j : Job} (h : j.code = .mhn2) (o o' : NativeOrder) (B : List Byte) :
    dispatch o B j = dispatch o' B j := by
  simp only [dispatch, h]

/-- The same state in another build. -/
def State.withCfg (c : Config) (s : State) : State := { s with cfg := c }

@[simp] theorem State.withCfg_cfg (c : Config) (s : State) : (s.withCfg c).cfg = c := rfl

@[simp] theorem State.withCfg_mem (c : Config) (s : State) : (s.withCfg c).mem = s.mem := rfl

@[simp] theorem State.withCfg_phase (c : Config) (s : State) : (s.withCfg c).phase = s.phase := rfl

theorem State.useDraws_withCfg (c : Config) (s : State) : (s.withCfg c).useDraws = s.useDraws.withCfg c := by
  cases hd : s.disturbed <;> simp [State.useDraws, State.withCfg, hd]

/-- A completion of MHN2 uses the build's byte order nowhere: not in the reads, the result or the report. -/
theorem State.engineStep_order {s : State} {j : Job} (hj : s.phase = .busy j) (hcode : j.code = .mhn2)
    (o : NativeOrder) :
    (s.withCfg { s.cfg with nativeOrder := o }).engineStep =
      s.engineStep.withCfg { s.cfg with nativeOrder := o } := by
  simp only [State.engineStep, State.withCfg_phase, hj, State.completeJob, State.useDraws_withCfg, State.withCfg_cfg,
    State.withCfg_mem, dataPhase_order, dispatch_mhn2_order hcode o s.cfg.nativeOrder]
  cases (dataPhase s.cfg s.mem j.src.toNat j.n.toNat).outcome <;> rfl

/-- Settles O47: the completion of a job of code 2 under another order, and MH2's two values on "test". -/
theorem neutralHashIgnoresNativeOrder : Obligations.NeutralHashIgnoresNativeOrder :=
  ⟨fun _ _ o hj hcode => State.engineStep_order hj hcode o, by decide⟩

/-! ### Parts of little-endian words (R402) -/

/-- The word without its low a bytes is the word of the bytes after them. -/
theorem le32_shiftRight (B : List Byte) (i : Nat) {a c : Nat} (hac : a ≤ c) (hc : c ≤ 4) :
    le32 B i c >>> (8 * a) = le32 B (i + a) (c - a) := by
  refine BitVec.eq_of_getLsbD_eq fun k hk => ?_
  have hin : 8 * a + k < 8 * c ↔ k < 8 * (c - a) := by omega
  have hbyte : i + (8 * a + k) / 8 = i + a + k / 8 := by omega
  have hbit : (8 * a + k) % 8 = k % 8 := by omega
  simp only [BitVec.getLsbD_ushiftRight, le32_getLsbD B i hc, le32_getLsbD B (i + a) (c := c - a) (by omega), hin,
    hbyte, hbit]

/-- The word of c bytes and, above it, the word of the e bytes that follow: what fits is the word of all of them. -/
theorem le32_or_shiftLeft (B : List Byte) (i : Nat) {c e : Nat} (hc : c ≤ 4) (he : e ≤ 4) :
    le32 B i c ||| le32 B (i + c) e <<< (8 * c) = le32 B i (min (c + e) 4) := by
  refine BitVec.eq_of_getLsbD_eq fun k hk => ?_
  rw [BitVec.getLsbD_or, BitVec.getLsbD_shiftLeft, le32_getLsbD B i hc, le32_getLsbD B (i + c) he,
    le32_getLsbD B i (c := min (c + e) 4) (by omega)]
  by_cases hlow : k < 8 * c
  · have hin : k < 8 * min (c + e) 4 := by omega
    simp [hlow, hin]
  · have hin : k - 8 * c < 8 * e ↔ k < 8 * min (c + e) 4 := by omega
    have hbyte : i + c + (k - 8 * c) / 8 = i + k / 8 := by omega
    have hbit : (k - 8 * c) % 8 = k % 8 := by omega
    simp [hlow, hk, hin, hbyte, hbit]

/-- Shifting a carry word up and down again loses none of the bytes it holds. -/
theorem le32_shiftLeft_shiftRight (B : List Byte) (i : Nat) {a c : Nat} (h : a + c ≤ 4) :
    le32 B i c <<< (8 * a) >>> (8 * a) = le32 B i c := by
  refine BitVec.eq_of_getLsbD_eq fun k hk => ?_
  rw [BitVec.getLsbD_ushiftRight, BitVec.getLsbD_shiftLeft, Nat.add_sub_cancel_left, le32_getLsbD B i (by omega)]
  have hup : ¬ 8 * a + k < 8 * a := by omega
  by_cases hin : k < 8 * c
  · have hfit : 8 * a + k < 32 := by omega
    simp [hin, hup, hfit]
  · simp [hin]

/-! ### MHA2 under LE (R506) -/

theorem mha2_of_aligned_or_short {a : Nat} {n : Word} (h : a = 0 ∨ n.toNat < 4) (o : NativeOrder) (B : List Byte)
    (seed : Word) : mha2 o B seed n a = mh2 o B seed n := if_pos h

/-- The carry word t holds the bytes from i up to the aligned group at i + (4 - a). -/
def Carries (B : List Byte) (a i : Nat) (t : Word) : Prop := t >>> (8 * a) = le32 B i (4 - a)

section
variable {B : List Byte} {a i : Nat} {t : Word} (ha : a < 4)
include ha

theorem carries_start : Carries B a 0 (le32 B 0 (4 - a) <<< (8 * a)) :=
  le32_shiftLeft_shiftRight B 0 (by omega)

/-- The group just read is the next carry word. -/
theorem carries_group : Carries B a (i + 4) (rdn32 .le B (i + (4 - a))) := by
  have hnext : i + (4 - a) + a = i + 4 := by omega
  rw [Carries, ← le32_four_eq_rdn32, le32_shiftRight B _ ha.le le_rfl, hnext]

variable (ht : Carries B a i t)
include ht

/-- The carry word with e bytes of the group put above it. -/
theorem Carries.or_le32 {e : Nat} (he : e ≤ 4) :
    t >>> (8 * a) ||| le32 B (i + (4 - a)) e <<< (8 * (4 - a)) = le32 B i (min (4 - a + e) 4) := by
  rw [ht, le32_or_shiftLeft B i (by omega) he]

/-- The carry word with at least a bytes put above it is the block word at i. -/
theorem Carries.or_le32_full {e : Nat} (hae : a ≤ e) (he : e ≤ 4) :
    t >>> (8 * a) ||| le32 B (i + (4 - a)) e <<< (8 * (4 - a)) = rdn32 .le B i := by
  have hfull : min (4 - a + e) 4 = 4 := by omega
  rw [ht.or_le32 ha he, hfull, le32_four_eq_rdn32]

theorem Carries.mha2Step_eq (h : Word) :
    mha2Step .le B a (h, t) (i + (4 - a)) = (mix2 h (rdn32 .le B i), rdn32 .le B (i + (4 - a))) := by
  rw [mha2Step, ← le32_four_eq_rdn32 B (i + (4 - a)), ht.or_le32_full ha ha.le le_rfl]

/-- The misaligned loop is MH2's loop, one group ahead of it. -/
theorem Carries.mha2_loop (blocks : Nat) (h : Word) :
    ∃ t', Carries B a (i + 4 * blocks) t' ∧
      blockLoop 4 (mha2Step .le B a) blocks (i + (4 - a)) (h, t) =
        (blockLoop 4 (fun h p => mix2 h (rdn32 .le B p)) blocks i h, t') := by
  induction blocks generalizing i t h with
  | zero => exact ⟨t, ht, rfl⟩
  | succ blocks ih =>
    obtain ⟨t', ht', hloop⟩ := ih (carries_group (i := i) ha) (mix2 h (rdn32 .le B i))
    have hnext : i + (4 - a) + 4 = i + 4 + (4 - a) := by omega
    have hlast : i + 4 + 4 * blocks = i + 4 * (blocks + 1) := by omega
    exact ⟨t', hlast ▸ ht', by rw [blockLoop_succ, ht.mha2Step_eq ha, hnext, hloop, blockLoop_succ]⟩

/-- With a bytes or more left, one more block word is full, and the rest is MH2's tail. -/
theorem Carries.mha2Tail_of_le {q : Nat} (haq : a ≤ q) (h : Word) :
    mha2Tail B a h t (i + (4 - a)) q = tail2 B (mix2 h (rdn32 .le B i)) (i + 4) (q - a) := by
  have hnext : i + (4 - a) + a = i + 4 := by omega
  simp only [mha2Tail, if_pos haq, ht.or_le32_full ha le_rfl ha.le, hnext]

/-- With fewer than a bytes left, the carried bytes and they are MH2's tail. -/
theorem Carries.mha2Tail_of_lt {q : Nat} (hqa : q < a) (h : Word) :
    mha2Tail B a h t (i + (4 - a)) q = tail2 B h i (4 - a + q) := by
  have hmin : min (4 - a + q) 4 = 4 - a + q := by omega
  simp only [mha2Tail, if_neg hqa.not_ge, ht.or_le32 ha (e := q) (by omega), hmin]
  rw [tail2_of_pos B h i (by omega)]

end

/-- The misaligned path under LE rebuilds MH2's block words and its tail word. -/
theorem mha2_le_eq_mh2 (B : List Byte) (seed n : Word) {a : Nat} (ha : a < 4) :
    mha2 .le B seed n a = mh2 .le B seed n := by
  by_cases hpath : a = 0 ∨ n.toNat < 4
  · exact mha2_of_aligned_or_short hpath .le B seed
  obtain ⟨blocks, hblocks⟩ : ∃ blocks, blocks = (n.toNat - (4 - a)) / 4 := ⟨_, rfl⟩
  obtain ⟨t, ht, hloop⟩ := (carries_start ha).mha2_loop ha (B := B) blocks (seed ^^^ n)
  rw [Nat.zero_add] at ht hloop
  have hend : 4 - a + 4 * blocks = 4 * blocks + (4 - a) := Nat.add_comm _ _
  simp only [mha2, mh2, if_neg hpath, ← hblocks, hloop, hend]
  obtain haq | hqa := le_or_gt a ((n.toNat - (4 - a)) % 4)
  · have hmore : n.toNat / 4 = blocks + 1 := by omega
    have hrest : n.toNat - 4 * (blocks + 1) = (n.toNat - (4 - a)) % 4 - a := by omega
    rw [ht.mha2Tail_of_le ha haq, hmore, hrest, blockLoop_succ_last, Nat.zero_add, Nat.mul_succ]
  · have hsame : n.toNat / 4 = blocks := by omega
    have hrest : n.toNat - 4 * blocks = 4 - a + (n.toNat - (4 - a)) % 4 := by omega
    rw [ht.mha2Tail_of_lt ha hqa, hsame, hrest]

/-- Settles O49: the equality under LE, the MH2 path of the aligned and the short inputs, and the values of R506. -/
theorem alignedEqualsClassicUnderLE : Obligations.AlignedEqualsClassicUnderLE := by
  refine ⟨fun B seed n a ha => ⟨mha2_le_eq_mh2 B seed n ha, fun o hne => ?_⟩, by decide, by decide, by decide⟩
  by_contra hpath
  exact hne (mha2_of_aligned_or_short (by omega) o B seed)

end Sys2Proof.Machine
end

section
/-! PROOFS. Scope: a job from its command to its report (44_dispatch_job.md rules R803 to R806), for the MurmurHash2
family (41_murmurhash2_family.md rules R501, R502, R503 and R505). -/

namespace Sys2Proof.Machine

/-- An accepted command on a readable range reports what the dispatch mux selects for its snapshot, whatever the
instruction. -/
theorem jobReports_dispatch {i : Instr} {s : State} (hread : Readable s.cfg s.src s.len)
    (haccepts : s.Accepts i.variant) :
    JobReports i s (dispatch s.cfg.nativeOrder s.input (s.snapshot i.variant)) := by
  have hexec : exec i s = .next ((s.setCtrl i.variant.code i.ie).accept i.variant) := by
    rw [exec_eq, State.command_of_accepts haccepts]
  have hphase : ((s.setCtrl i.variant.code i.ie).accept i.variant).phase = .busy (s.snapshot i.variant) := rfl
  refine ⟨_, hexec, hphase, rfl, ?_⟩
  rw [State.engineStep_of_readable hphase hread, State.resOr_undisturbed rfl, State.useDraws_undisturbed rfl]
  rfl

/-- Settles O10: the mux's arm of each code. -/
theorem murmurHash2JobsReportTheirHash : Obligations.MurmurHash2JobsReportTheirHash := by
  intro ie s hread
  refine ⟨jobReports_dispatch (i := .mh2 ie) hread, jobReports_dispatch (i := .mh2a ie) hread,
    jobReports_dispatch (i := .mhn2 ie) hread, fun haccepts => ?_⟩
  rw [← srcLow_toNat]
  exact jobReports_dispatch (i := .mha2 ie) hread haccepts

end Sys2Proof.Machine
end

section
/-! PROOFS. Scope: the nine functions on one full block and a tail of c bytes (40_primitives.md rule R403;
41_murmurhash2_family.md rules R501 to R505; 42_murmurhash64.md rules R601 and R602; 43_murmurhash3.md rules R701 to
R703). -/

namespace Sys2Proof.Machine

/-! ### Words of one byte -/

theorem le_one (B : List Byte) (p : Nat) : le B p 1 = (byteAt B p).setWidth 64 := by
  simp [le, sumBelow, byte64]

theorem le32_one (B : List Byte) (p : Nat) : le32 B p 1 = (byteAt B p).setWidth 32 := by
  rw [le32, le_one, BitVec.setWidth_setWidth_of_le _ (by decide)]

/-! ### One block -/

theorem blockLoop_one {σ : Type} (size : Nat) (f : σ → Nat → σ) (p : Nat) (acc : σ) :
    blockLoop size f 1 p acc = f acc p := rfl

/-- One block and fewer bytes than a block make one full block. -/
theorem add_div_eq_one {size c : Nat} (hc : c < size) : (size + c) / size = 1 := by
  rw [Nat.add_div_left c (by omega), Nat.div_eq_of_lt hc]

section
variable (o : NativeOrder) (B : List Byte) (seed : Word) {n : Word} {c : Nat}

section
variable (hn : n.toNat = 4 + c) (hc : c < 4)
include hn hc

theorem mh2_oneBlock : mh2 o B seed n = fin2 (tail2 B (mix2 (seed ^^^ n) (rdn32 o B 0)) 4 c) := by
  simp only [mh2, hn, add_div_eq_one hc, blockLoop_one, Nat.mul_one, Nat.add_sub_cancel_left]

theorem mh2a_oneBlock :
    mh2a o B seed n = fin2 (mix2 (mix2 (mix2 seed (rdn32 o B 0)) (le32 B 4 c)) n) := by
  simp only [mh2a, hn, add_div_eq_one hc, blockLoop_one, Nat.mul_one, Nat.add_sub_cancel_left]

theorem mh3_32_oneBlock (hpos : 0 < c) :
    mh3_32 o B seed n =
      fmix32 ((rotl32 (seed ^^^ keyX86_32 (rdn32 o B 0)) 13 * 5 + 0xE6546B64) ^^^ keyX86_32 (le32 B 4 c) ^^^ n) := by
  simp only [mh3_32, hn, add_div_eq_one hc, blockLoop_one, Nat.mul_one, Nat.add_sub_cancel_left, if_pos hpos]

end

/-- One turn of the misaligned loop, with the carry word of the bytes before it. -/
theorem mha2_oneGroup {a q : Nat} (hn : n.toNat = 4 - a + (4 + q)) (ha : a ≠ 0) (hq : q < 4) :
    mha2 o B seed n a =
      fin2 (mha2Tail B a
        (mix2 (seed ^^^ n) ((le32 B 0 (4 - a) <<< (8 * a)) >>> (8 * a) ||| rdn32 o B (4 - a) <<< (8 * (4 - a))))
        (rdn32 o B (4 - a)) (4 - a + 4) q) := by
  have hpath : ¬ (a = 0 ∨ n.toNat < 4) := by omega
  have hrest : n.toNat - (4 - a) = 4 + q := by omega
  have htail : (4 + q) % 4 = q := by omega
  simp only [mha2, if_neg hpath, hrest, add_div_eq_one hq, htail, blockLoop_one, mha2Step, Nat.mul_one]

theorem mh64a_oneBlock (hn : n.toNat = 8 + c) (hc : c < 8) :
    mh64a o B seed n =
      fin64a (tail64a B (mix64a (seed.setWidth 64 ^^^ n.setWidth 64 * MH64A_M) (rdn64 o B 0)) 8 c) := by
  simp only [mh64a, hn, add_div_eq_one hc, blockLoop_one, Nat.mul_one, Nat.add_sub_cancel_left]

/-- A block, a half block and a tail. -/
theorem mh64b_oneBlock_half (hn : n.toNat = 12 + c) (hc : c < 4) :
    mh64b o B seed n =
      fin64b (mix2 (mix2 (seed ^^^ n) (rdn32 o B 0)) (rdn32 o B 8)) (tail2 B (mix2 0 (rdn32 o B 4)) 12 c) := by
  have hblocks : n.toNat / 8 = 1 := by omega
  have hhalf : 4 ≤ n.toNat - 8 := by omega
  have htail : n.toNat - 12 = c := by omega
  simp only [mh64b, hblocks, blockLoop_one, Nat.mul_one, hhalf, decide_true, if_true, Nat.reduceAdd, htail]

section
variable (hn : n.toNat = 16 + c) (hc : c < 16)
include hn hc

theorem mh3_x86_128_oneBlock :
    mh3_x86_128 o B seed n = x86_128Fin (x86_128Tail B (x86_128Block o B ⟨seed, seed, seed, seed⟩ 0) 16 c) n := by
  simp only [mh3_x86_128, hn, add_div_eq_one hc, blockLoop_one, Nat.mul_one, Nat.add_sub_cancel_left]

theorem mh3_x64_128_oneBlock :
    mh3_x64_128 o B seed n =
      x64_128Fin (x64_128Tail B (x64_128Block o B ⟨seed.setWidth 64, seed.setWidth 64⟩ 0) 16 c) n := by
  simp only [mh3_x64_128, hn, add_div_eq_one hc, blockLoop_one, Nat.mul_one, Nat.add_sub_cancel_left]

end

end

/-! ### Tails that reach the last lane -/

/-- Past 12 bytes every lane of the tail has bytes, and all but the last are full. -/
theorem x86_128Tail_of_gt (B : List Byte) (l : Lanes4) (p : Nat) {c : Nat} (hc : 12 < c) :
    x86_128Tail B l p c =
      ⟨l.h1 ^^^ keyX86_128_1 (le32 B p 4), l.h2 ^^^ keyX86_128_2 (le32 B (p + 4) 4),
        l.h3 ^^^ keyX86_128_3 (le32 B (p + 8) 4), l.h4 ^^^ keyX86_128_4 (le32 B (p + 12) (laneBytes c 12 4))⟩ := by
  have h4 : 0 < laneBytes c 12 4 := by unfold laneBytes; omega
  have hfull : ∀ start, start ≤ 8 → laneBytes c start 4 = 4 := fun start hstart => by unfold laneBytes; omega
  simp only [x86_128Tail, if_pos h4, hfull 0 (by decide), hfull 4 (by decide), hfull 8 le_rfl, Nat.zero_lt_succ,
    if_true]

/-- Past 8 bytes both lanes of the tail have bytes, and the first is full. -/
theorem x64_128Tail_of_gt (B : List Byte) (l : Lanes2) (p : Nat) {c : Nat} (hc : 8 < c) :
    x64_128Tail B l p c =
      ⟨l.h1 ^^^ keyX64_128_1 (le B p 8), l.h2 ^^^ keyX64_128_2 (le B (p + 8) (c - 8))⟩ := by
  have hpos : 0 < c := by omega
  simp only [x64_128Tail, if_pos hc, if_pos hpos, Nat.min_eq_right hc.le]

/-! ### The lengths and alignments written out -/

/-- A word inside the first four bytes does not see the fifth. -/
theorem rdn32_dropFifth (o : NativeOrder) (b0 b1 b2 b3 b4 : Byte) :
    rdn32 o [b0, b1, b2, b3, b4] 0 = rdn32 o [b0, b1, b2, b3] 0 :=
  (agreeBelow_append [b0, b1, b2, b3] [b4]).rdn32_eq o le_rfl

theorem le32_fifth (b0 b1 b2 b3 b4 : Byte) : le32 [b0, b1, b2, b3, b4] 4 1 = b4.setWidth 32 := le32_one _ _

theorem mh2_five (o : NativeOrder) (b0 b1 b2 b3 b4 : Byte) (seed : Word) :
    mh2 o [b0, b1, b2, b3, b4] seed 5 =
      fin2 ((mix2 (seed ^^^ 5) (rdn32 o [b0, b1, b2, b3] 0) ^^^ b4.setWidth 32) * MH2_M) := by
  rw [mh2_oneBlock (c := 1) o _ seed rfl (by decide), tail2_of_pos _ _ _ (by decide), rdn32_dropFifth, le32_fifth]

theorem mha2_eight_at_one (o : NativeOrder) (B : List Byte) (seed : Word) :
    mha2 o B seed 8 1 =
      fin2 (mix2 (mix2 (seed ^^^ 8) ((le32 B 0 3 <<< 8) >>> 8 ||| rdn32 o B 3 <<< 24))
        (rdn32 o B 3 >>> 8 ||| (byteAt B 7).setWidth 32 <<< 24)) := by
  rw [mha2_oneGroup (a := 1) (q := 1) o B seed rfl (by decide) (by decide), mha2Tail, if_pos le_rfl, le32_one]
  exact congrArg fin2 (tail2_zero B _ _)

theorem mha2_seven_at_three (o : NativeOrder) (B : List Byte) (seed : Word) :
    mha2 o B seed 7 3 =
      fin2 ((mix2 (seed ^^^ 7) ((le32 B 0 1 <<< 24) >>> 24 ||| rdn32 o B 1 <<< 8) ^^^
        (rdn32 o B 1 >>> 24 ||| le32 B 5 2 <<< 8)) * MH2_M) := by
  rw [mha2_oneGroup (a := 3) (q := 2) o B seed rfl (by decide) (by decide), mha2Tail, if_neg (by decide)]

/-- Settles O54: each function's one block and its tail, at the lengths named. The `rfl`s spell out the key mixers, the
block steps and the finalizations, which are those expressions by definition. -/
theorem oneBlockAndATail : Obligations.OneBlockAndATail := by
  refine ⟨fun o b0 b1 b2 b3 b4 seed => ⟨mh2_five o b0 b1 b2 b3 b4 seed, ?_, ?_, ?_⟩,
    fun o B seed => ⟨mha2_eight_at_one o B seed, mha2_seven_at_three o B seed⟩, fun o B seed => ?_, fun o B seed => ?_,
    fun o B seed => ?_, fun o B seed => ?_⟩
  · rw [mh2a_oneBlock (c := 1) o _ seed rfl (by decide), rdn32_dropFifth, le32_fifth]
  · rw [mhn2_eq_mh2_le, mh2_five]
  · rw [mh3_32_oneBlock (c := 1) o _ seed rfl (by decide) (by decide), rdn32_dropFifth, le32_fifth]
    rfl
  · rw [mh64a_oneBlock (c := 1) o B seed rfl (by decide), tail64a_of_pos _ _ _ (by decide), le_one]
    rfl
  · rw [mh64b_oneBlock_half (c := 1) o B seed rfl (by decide), tail2_of_pos _ _ _ (by decide), le32_one]
  · rw [mh3_x86_128_oneBlock (c := 13) o B seed rfl (by decide), x86_128Tail_of_gt _ _ _ (by decide),
      show laneBytes 13 12 4 = 1 from rfl, le32_one]
    rfl
  · rw [mh3_x64_128_oneBlock (c := 9) o B seed rfl (by decide), x64_128Tail_of_gt _ _ _ (by decide), le_one]
    rfl

end Sys2Proof.Machine
end

section
/-! PROOFS. Scope: MH64A and MH64B (42_murmurhash64.md rules R601 to R603): a job from its command to its report, with
the placement of a 64-bit result (10_state.md rule R111), and the two functions apart. -/

namespace Sys2Proof.Machine

/-- A job whose mux arm is a 64-bit value reports its two halves, low half first. -/
theorem jobReports_words64 {i : Instr} {s : State} {h : DWord} (hread : Readable s.cfg s.src s.len)
    (haccepts : s.Accepts i.variant)
    (harm : dispatch s.cfg.nativeOrder s.input (s.snapshot i.variant) = words64 h) :
    ∃ lo hi : Word, hi ++ lo = h ∧ JobReports i s ⟨lo, hi, 0, 0⟩ := by
  have hreport := jobReports_dispatch hread haccepts
  rw [harm] at hreport
  exact ⟨h.extractLsb' 0 32, h.extractLsb' 32 32, halves_append h, hreport⟩

/-- Settles O11: the mux's arm of each code is the 64-bit function. -/
theorem murmurHash64JobsReportTheirHash : Obligations.MurmurHash64JobsReportTheirHash := fun ie _ hread =>
  ⟨fun haccepts => jobReports_words64 (i := .mh64a ie) hread haccepts rfl,
    fun haccepts => jobReports_words64 (i := .mh64b ie) hread haccepts rfl⟩

/-- R601 on the five bytes of "hello". -/
theorem mh64a_hello : mh64a .le [0x68, 0x65, 0x6C, 0x6C, 0x6F] 0 5 = 0x1E68D17C457BF117#64 := by decide

/-- R602 on the five bytes of "hello". -/
theorem mh64b_hello : mh64b .le [0x68, 0x65, 0x6C, 0x6C, 0x6F] 0 5 = 0xF510DB152543FD7F#64 := by decide

/-- Settles O55: the values on "hello"; on the empty input the finalizers map the seeding of seed 0 to 0. -/
theorem hash64VariantsDiffer : Obligations.Hash64VariantsDiffer := by
  refine ⟨mh64a_hello, mh64b_hello, by decide, ?_, ?_, by decide⟩
  · rw [mh64a_empty]
    decide
  · rw [mh64b_empty]
    decide

end Sys2Proof.Machine
end

section
/-! PROOFS. Scope: MurmurHash3 (43_murmurhash3.md rules R701 to R703): a job from its command to its report, with the
placement of a 128-bit result (10_state.md rule R111), and the lanes of MH3_X86_128 that coincide on a short input. -/

namespace Sys2Proof.Machine

/-- Settles O12: the mux's arm of each code; the words of MH3_X64_128 are the halves of its two lanes. -/
theorem murmurHash3JobsReportTheirHash : Obligations.MurmurHash3JobsReportTheirHash := fun ie _ hread =>
  ⟨jobReports_dispatch (i := .mh3_32 ie) hread, jobReports_dispatch (i := .mh3_x86_128 ie) hread,
    fun haccepts => ⟨_, _, _, _, halves_append _, halves_append _,
      jobReports_dispatch (i := .mh3_x64_128 ie) hread haccepts⟩⟩

/-! ### Lanes of a short input -/

/-- An input shorter than a block is all tail. -/
theorem mh3_x86_128_noBlock (o : NativeOrder) (B : List Byte) (seed : Word) {n : Word} (hn : n.toNat < 16) :
    mh3_x86_128 o B seed n = x86_128Fin (x86_128Tail B ⟨seed, seed, seed, seed⟩ 0 n.toNat) n := by
  simp only [mh3_x86_128, Nat.div_eq_of_lt hn, blockLoop_zero, Nat.mul_zero, Nat.sub_zero]

/-- A lane that starts at or past the tail's end has no byte of it. -/
theorem laneBytes_of_le {c start : Nat} (h : c ≤ start) (width : Nat) : laneBytes c start width = 0 := by
  rw [laneBytes, Nat.sub_eq_zero_of_le h, Nat.zero_min]

section
variable (B : List Byte) (l : Lanes4) (p : Nat) {c : Nat}

/-- The tail leaves the lanes it does not reach. -/
theorem x86_128Tail_h4_of_le (hc : c ≤ 12) : (x86_128Tail B l p c).h4 = l.h4 := by
  simp [x86_128Tail, laneBytes_of_le hc]

theorem x86_128Tail_h3_of_le (hc : c ≤ 8) : (x86_128Tail B l p c).h3 = l.h3 := by
  simp [x86_128Tail, laneBytes_of_le hc]

theorem x86_128Tail_h2_of_le (hc : c ≤ 4) : (x86_128Tail B l p c).h2 = l.h2 := by
  simp [x86_128Tail, laneBytes_of_le hc]

end

section
variable {l : Lanes4} (n : Word)

/-- The finalization treats lanes 2 to 4 alike, so it keeps two of them equal. -/
theorem x86_128Fin_h3_eq_h4 (h : l.h3 = l.h4) : (x86_128Fin l n).h3 = (x86_128Fin l n).h4 := by
  simp [x86_128Fin, x86_128Cross, h]

theorem x86_128Fin_h2_eq_h3 (h : l.h2 = l.h3) : (x86_128Fin l n).h2 = (x86_128Fin l n).h3 := by
  simp [x86_128Fin, x86_128Cross, h]

end

section
variable (o : NativeOrder) (B : List Byte) (seed : Word) {n : Word}

/-- R702: up to 8 bytes reach lanes 1 and 2 only. -/
theorem mh3_x86_128_h3_eq_h4 (hn : n.toNat ≤ 8) : (mh3_x86_128 o B seed n).h3 = (mh3_x86_128 o B seed n).h4 := by
  rw [mh3_x86_128_noBlock o B seed (by omega)]
  apply x86_128Fin_h3_eq_h4
  rw [x86_128Tail_h3_of_le _ _ _ hn, x86_128Tail_h4_of_le _ _ _ (by omega)]

/-- R702: up to 4 bytes reach lane 1 only. -/
theorem mh3_x86_128_h2_eq_h3 (hn : n.toNat ≤ 4) : (mh3_x86_128 o B seed n).h2 = (mh3_x86_128 o B seed n).h3 := by
  rw [mh3_x86_128_noBlock o B seed (by omega)]
  apply x86_128Fin_h2_eq_h3
  rw [x86_128Tail_h2_of_le _ _ _ hn, x86_128Tail_h3_of_le _ _ _ (by omega)]

end

/-- Settles O53: RES1 to RES3 are lanes 2 to 4. -/
theorem shortInputLanesCoincide : Obligations.ShortInputLanesCoincide := fun o B seed _ _ =>
  ⟨mh3_x86_128_h3_eq_h4 o B seed, mh3_x86_128_h2_eq_h3 o B seed⟩

end Sys2Proof.Machine
end

section
/-! PROOFS. Scope: the invariant of the running job on every step (44_dispatch_job.md rules R802 and R805; 20_memory.md
rule R201; log 9). -/

namespace Sys2Proof.Machine

/-! ### States that meet the invariant -/

/-- An IDLE state without the mark has no job to speak of. -/
theorem State.jobInv_of_idle {s : State} (hidle : s.phase = .idle) (hmark : s.disturbed = false) : s.JobInv :=
  ⟨fun j hj => by simp [hidle] at hj, fun h => by simp [hmark] at h⟩

/-- Under the invariant an IDLE state has no mark. -/
theorem State.JobInv.disturbed_of_idle {s : State} (h : s.JobInv) (hidle : s.phase = .idle) : s.disturbed = false :=
  Bool.eq_false_of_not_eq_true fun hmark => h.2 hmark hidle

/-- The invariant is kept with the build and the job, if a mark is set on a running job only. -/
theorem State.JobInv.of_job_kept {s t : State} (h : s.JobInv) (hcfg : t.cfg = s.cfg) (hphase : t.phase = s.phase)
    (hmark : t.disturbed = true → s.disturbed = true ∨ s.phase ≠ .idle) : t.JobInv := by
  obtain ⟨hjob, hrunning⟩ := h
  unfold State.JobInv
  rw [hcfg, hphase]
  exact ⟨hjob, fun ht => (hmark ht).elim hrunning id⟩

/-- The host's turn and its statement are no part of the job. -/
theorem State.JobInv.of_hostNext {s u : State} {stmt : HostStmt} (h : s.JobInv) (hn : HostNext s stmt u) :
    u.JobInv := by
  obtain ⟨rest, ts, -, rfl⟩ := hn.moved
  exact h

theorem State.JobInv.of_engineNext {s u : State} (h : s.JobInv) (hn : EngineNext s u) : u.JobInv := by
  obtain ⟨ts, rfl⟩ := hn.moved
  exact h

/-! ### Each operation keeps it -/

/-- The issue checks are the invariant of the job they let through (R802, R805). -/
theorem State.writeCtrl_jobInv {s : State} (h : s.JobInv) (w : Word) : (s.writeCtrl w).JobInv := by
  obtain hw | ⟨-, hidle, e, -, hw⟩ | ⟨-, f, -, ⟨-, henabled, hrange⟩, hw⟩ := s.writeCtrl_outcomes w <;> rw [hw]
  · exact h.of_job_kept rfl rfl .inl
  · exact State.jobInv_of_idle rfl (h.disturbed_of_idle hidle)
  · exact ⟨fun j hj => by cases hj; exact ⟨henabled, hrange⟩, fun hmark => by cases hmark⟩

theorem State.writeReg_jobInv {s : State} (h : s.JobInv) (r : Reg) (w : Word) : (s.writeReg r w).JobInv := by
  cases r with
  | ctrl => exact State.writeCtrl_jobInv h w
  | status =>
    exact h.of_job_kept (State.acknowledge_cfg w s) (State.acknowledge_phase w s)
      fun hmark => .inl (State.acknowledge_disturbed w s ▸ hmark)
  | _ => exact h

/-- A store marks a running job only. -/
theorem State.storeBytes_jobInv {s : State} (h : s.JobInv) (a : Nat) (bytes : List Byte) :
    (s.storeBytes a bytes).JobInv :=
  h.of_job_kept (State.storeBytes_cfg a bytes s) (State.storeBytes_phase a bytes s) fun hmark =>
    ((State.storeBytes_disturbed_iff a bytes s).mp hmark).imp_right fun ⟨_, _, hj, _⟩ => by simp [hj]

theorem State.hostStep_jobInv {stmt : HostStmt} {s t : State} (h : s.JobInv) (hstep : s.hostStep stmt = .next t) :
    t.JobInv := by
  obtain ⟨a, w, r, -, -, rfl⟩ | ⟨a, x, r, -, -, rfl⟩ | ⟨a, mask, -, rfl | rfl⟩ | ⟨addr, bytes, -, -, rfl⟩ :=
    State.hostStep_next hstep
  · exact State.writeReg_jobInv h r w
  · exact h
  · exact h
  · exact h
  · exact State.storeBytes_jobInv h _ _

/-- A completion ends the job and clears its mark. -/
theorem State.engineStep_jobInv {s : State} (h : s.JobInv) : s.engineStep.JobInv := by
  obtain ⟨-, he⟩ | ⟨j, -, ⟨B, -, he⟩ | ⟨fa, -, he⟩⟩ := s.engineStep_cases <;> rw [he]
  · exact h
  · exact State.jobInv_of_idle rfl s.useDraws_disturbed
  · exact State.jobInv_of_idle rfl s.useDraws_disturbed

/-- Settles O33: what each agent's step does keeps the running job's invariant. -/
theorem stepKeepsJobInvariant : Obligations.StepKeepsJobInvariant := by
  intro s t hs hstep
  obtain ⟨stmt, u, i, hn, hc, rfl⟩ | ⟨stmt, u, hn, -, hhost⟩ | ⟨u, hn, rfl⟩ | ⟨u, -, rfl⟩ | ⟨-, ts, rfl⟩ :=
    step_cases hstep
  · obtain ⟨a, w, -, -, hdecode⟩ := commandOf_eq_some hc
    rw [← State.writeCtrl_of_decode hdecode]
    exact State.writeCtrl_jobInv (hs.of_hostNext hn) w
  · exact State.hostStep_jobInv (hs.of_hostNext hn) hhost
  · exact State.engineStep_jobInv (hs.of_engineNext hn)
  · exact State.jobInv_of_idle rfl rfl
  · exact hs

end Sys2Proof.Machine
end

section
/-! PROOFS. Scope: commands on a running job and the issue checks in their order (44_dispatch_job.md rules R801 to
R803). -/

namespace Sys2Proof.Machine

/-! ### Commands while BUSY and while IDLE -/

/-- While BUSY a command writes CTRL and does nothing more (R801). -/
theorem State.command_of_busy {s : State} (hbusy : s.phase ≠ .idle) (v : BitVec 4) (ie : Bool) :
    s.command v ie = s.setCtrl v ie := by
  simp [State.command, (State.busy_eq_true_iff s).mpr hbusy]

/-- While BUSY every CTRL write sets the word's fields and does nothing more (R801). -/
theorem State.writeCtrl_of_busy {s : State} (hbusy : s.phase ≠ .idle) (w : Word) :
    s.writeCtrl w = s.setCtrl (cmdVariant w) (cmdIe w) := by
  rw [State.writeCtrl, State.command_of_busy hbusy, ite_self]

section
variable {s t : State} {w : Word} (hn : HostNext s (.wr (Reg.access .ctrl s.cfg.regBase) w) t)
include hn

/-- A step that writes CTRL while BUSY. -/
theorem step_of_ctrlWrite_busy (hbusy : s.phase ≠ .idle) :
    step s = .next (t.setCtrl (cmdVariant w) (cmdIe w)) := by
  have ht : t.phase ≠ .idle := (RegistersKept.of_hostNext hn).phase ▸ hbusy
  rw [step_of_write hn, State.writeReg_ctrl, State.writeCtrl_of_busy ht]

/-- A step that writes a command to CTRL while IDLE. -/
theorem step_of_command_idle (hstart : w.getLsbD 8 = true) (hidle : s.phase = .idle) :
    step s = .next ((t.setCtrl (cmdVariant w) (cmdIe w)).issue (cmdVariant w)) := by
  have ht : t.phase = .idle := (RegistersKept.of_hostNext hn).phase.trans hidle
  rw [step_of_write hn, State.writeReg_ctrl, State.writeCtrl_of_idle hstart ht]

end

/-- Settles O6: the CTRL write by the phase in which it comes. -/
theorem commandWhileBusyIsIgnored : Obligations.CommandWhileBusyIsIgnored := by
  refine ⟨fun i s hbusy => ?_, fun s t w hn hstart => ⟨step_of_ctrlWrite_busy hn, step_of_command_idle hn hstart⟩⟩
  rw [exec_eq, State.command_of_busy hbusy]
  rfl

/-! ### The issue checks -/

/-- A code with its ENABLED bit set is an active variant's. -/
theorem ofCode_of_enabled {c : Config} {v : BitVec 4} (h : c.enabled.getLsbD v.toNat = true) :
    ∃ f, Variant.ofCode v = some f ∧ Config.active c f = true := by
  have hbelow : v.toNat < 9 := BitVec.lt_of_getLsbD h
  cases hf : Variant.ofCode v with
  | none => exact absurd ((Variant.ofCode_eq_none_iff v).mp hf) (Nat.not_le.mpr hbelow)
  | some f => exact ⟨f, rfl, by rwa [Config.active, Variant.code_of_ofCode hf]⟩

/-- The first check comes before the range is looked at (R802). -/
theorem State.issue_of_illegal {s : State} {v : BitVec 4}
    (h : 9 ≤ v.toNat ∨ s.cfg.enabled.getLsbD v.toNat = false) : s.issue v = s.reject errIllegalVariant := by
  obtain hnone | ⟨f, hf, hinactive⟩ := (illegalCode_iff s.cfg v).mpr h
  · simp [State.issue, hnone]
  · simp [State.issue, hf, hinactive]

section
variable {s : State} {v : BitVec 4} {f : Variant} (hf : Variant.ofCode v = some f)
  (hactive : Config.active s.cfg f = true)
include hf hactive

theorem State.issue_of_wrapping (hrange : 2 ^ 32 < s.src.toNat + s.len.toNat) : s.issue v = s.reject errRange := by
  have hwraps : s.rangeOk = false := decide_eq_false (Nat.not_le.mpr hrange)
  simp [State.issue, hf, hactive, hwraps]

theorem State.issue_of_legal (hrange : s.src.toNat + s.len.toNat ≤ 2 ^ 32) : s.issue v = s.accept f := by
  have hfits : s.rangeOk = true := decide_eq_true hrange
  simp [State.issue, hf, hactive, hfits]

end

/-- Settles O7: the issue of the written code, by the check that it fails or by none. -/
theorem issueChecksInOrder : Obligations.IssueChecksInOrder := by
  intro s t w hn hstart hidle
  have hkept := RegistersKept.of_hostNext hn
  rw [step_of_command_idle hn hstart hidle, ← hkept.cfg, ← hkept.seed, ← hkept.src, ← hkept.len]
  refine ⟨fun hillegal => congrArg _ (State.issue_of_illegal hillegal), fun henabled hrange => ?_,
    fun henabled hrange => ?_⟩
  · obtain ⟨f, hf, hactive⟩ := ofCode_of_enabled henabled
    exact congrArg _ (State.issue_of_wrapping hf hactive hrange)
  · obtain ⟨f, hf, hactive⟩ := ofCode_of_enabled henabled
    exact ⟨f, Variant.code_of_ofCode hf, congrArg _ (State.issue_of_legal hf hactive hrange)⟩

end Sys2Proof.Machine
end

section
/-! PROOFS. Scope: the engine: what it leaves of a job that runs on, and how a job ends (44_dispatch_job.md rules R800
and R803 to R807; 10_state.md rules R107, R111 and R113). -/

namespace Sys2Proof.Machine

/-! ### The dispatch mux -/

/-- Settles O17: the mux's arm of each code, with the halves of the 64-bit words. -/
theorem dispatchSelectsByJobCode : Obligations.DispatchSelectsByJobCode := by
  intro o B seed src n
  refine ⟨rfl, rfl, rfl, ?_, rfl, ⟨_, _, halves_append _, rfl⟩, ⟨_, _, halves_append _, rfl⟩, ⟨_, _, _, _, rfl, rfl⟩,
    _, _, _, _, congrArg₂ Lanes2.mk (halves_append _).symm (halves_append _).symm, rfl⟩
  rw [← srcLow_toNat]
  rfl

/-- The mux reads of a job its code, seed and length, and for MHA2 the low two bits of its source (R212). -/
theorem dispatch_congr {j₁ j₂ : Job} (hcode : j₁.code = j₂.code) (hseed : j₁.seed = j₂.seed) (hn : j₁.n = j₂.n)
    (hlow : j₁.code = .mha2 → j₁.src.toNat % 4 = j₂.src.toNat % 4) (o : NativeOrder) (B : List Byte) :
    dispatch o B j₁ = dispatch o B j₂ := by
  obtain ⟨code, seed, src₁, n⟩ := j₁
  obtain ⟨_, _, src₂, _⟩ := j₂
  cases hcode
  cases hseed
  cases hn
  cases code with
  | mha2 => simp only [dispatch, srcLow_toNat, hlow rfl]
  | _ => rfl

/-! ### The engine's turn -/

/-- Settles O19: the engine's step while IDLE is none. -/
theorem engineRestsWhileIdle : Obligations.EngineRestsWhileIdle := by
  intro s t hn hidle
  rw [step_of_engineNext hn, State.engineStep_of_idle ((RegistersKept.of_engineNext hn).phase.trans hidle)]

section
variable {s : State} {j : Job} (hj : s.phase = .busy j) (hmark : s.disturbed = false)
include hj hmark

/-- Without the mark, a job on a readable range ends with the mux's result (R806). -/
theorem State.engineStep_of_undisturbed_readable (hread : Readable s.cfg j.src j.n) :
    s.engineStep =
      State.endWithResult (dispatch s.cfg.nativeOrder (inputBytes s.mem j.src.toNat j.n.toNat) j)
        { s with portReads := s.portReads ++ addressesFrom j.src.toNat j.n.toNat } := by
  rw [State.engineStep_of_readable hj hread, State.resOr_undisturbed hmark, State.useDraws_undisturbed hmark]

/-- Without the mark, a job with a least failing address ends there with RES 0 (R807). -/
theorem State.engineStep_of_undisturbed_fault {k : Nat} (hk : k < j.n.toNat)
    (hok : ∀ i, i < k → Config.busOk s.cfg (j.src.toNat + i) = true)
    (hfail : Config.busOk s.cfg (j.src.toNat + k) = false) :
    s.engineStep =
      State.endWithError errBus (BitVec.ofNat 32 (j.src.toNat + k)) .zero
        { s with portReads := s.portReads ++ addressesFrom j.src.toNat (k + 1) } := by
  rw [State.engineStep_of_fault hj hk hok hfail, State.resOr_undisturbed hmark, State.useDraws_undisturbed hmark]

end

/-- Settles O14: moving past the turn leaves the job, its input and the mark as they are. -/
theorem completionWritesTheResult : Obligations.CompletionWritesTheResult := by
  intro s t j hn hj hmark hread
  rw [step_of_engineNext hn]
  obtain ⟨ts, rfl⟩ := hn.moved
  exact congrArg _ (State.engineStep_of_undisturbed_readable (s := { s with turns := ts }) hj hmark hread)

/-- Settles O15: the least failing address lies in a range that does not wrap, so 32 bits hold it. -/
theorem completionReportsTheBusError : Obligations.CompletionReportsTheBusError := by
  intro s t j k hn hj hmark hrange hk hok hfail
  have haddr : j.src.toNat + k < 2 ^ 32 := by omega
  refine ⟨BitVec.ofNat 32 (j.src.toNat + k), (BitVec.toNat_ofNat _ _).trans (Nat.mod_eq_of_lt haddr), ?_⟩
  rw [step_of_engineNext hn]
  obtain ⟨ts, rfl⟩ := hn.moved
  exact congrArg _ (State.engineStep_of_undisturbed_fault (s := { s with turns := ts }) hj hmark hk hok hfail)

/-! ### Two jobs -/

/-- Ranges that read alike give the same input bytes. -/
theorem inputBytes_congr {m₁ m₂ : Memory} {a₁ a₂ n : Nat}
    (h : ∀ k, k < n → Memory.read m₁ (a₁ + k) = Memory.read m₂ (a₂ + k)) : inputBytes m₁ a₁ n = inputBytes m₂ a₂ n :=
  List.map_congr_left fun k hk => h k (List.mem_range.mp hk)

/-- Settles O18: both jobs end with a clean report, and the mux's two results are equal. -/
theorem resultDependsOnJobAndBytesOnly : Obligations.ResultDependsOnJobAndBytesOnly := by
  intro s₁ s₂ j₁ j₂ hj₁ hj₂ hmark₁ hmark₂ hcode hseed hn hlow horder hread₁ hread₂ hbytes
  rw [State.engineStep_of_undisturbed_readable hj₁ hmark₁ hread₁,
    State.engineStep_of_undisturbed_readable hj₂ hmark₂ hread₂, inputBytes_congr hbytes, hn, horder,
    dispatch_congr hcode hseed hn hlow]
  exact ⟨rfl, rfl, rfl, rfl, rfl⟩

/-! ### A job that runs on -/

/-- PHASE with its job, RES and the report are the same in both states. -/
structure ReportKept (s t : State) : Prop where
  phase : t.phase = s.phase
  res : t.res = s.res
  errAddr : t.errAddr = s.errAddr
  done : t.done = s.done
  err : t.err = s.err
  errcode : t.errcode = s.errcode

theorem RegistersKept.reportKept {s t : State} (h : RegistersKept s t) : ReportKept s t :=
  ⟨h.phase, h.res, h.errAddr, h.done, h.err, h.errcode⟩

theorem ReportKept.trans {s t u : State} (h : ReportKept s t) (h' : ReportKept t u) : ReportKept s u :=
  ⟨h'.phase.trans h.phase, h'.res.trans h.res, h'.errAddr.trans h.errAddr, h'.done.trans h.done, h'.err.trans h.err,
    h'.errcode.trans h.errcode⟩

/-- A running job has no report to acknowledge and takes no command, so no write reaches it (R108, R801). -/
theorem ReportKept.writeReg {s : State} (hbusy : s.phase ≠ .idle) (hdone : s.done = false) (r : Reg) (w : Word) :
    ReportKept s (s.writeReg r w) := by
  cases r with
  | ctrl =>
    rw [State.writeReg_ctrl, State.writeCtrl_of_busy hbusy]
    constructor <;> rfl
  | status =>
    rw [show s.writeReg .status w = s from State.acknowledge_of_not (.inr hdone)]
    constructor <;> rfl
  | _ => constructor <;> rfl

/-- The engine's step leaves no job running. -/
theorem State.engineStep_phase (s : State) : s.engineStep.phase = .idle := by
  obtain ⟨hidle, he⟩ | ⟨j, -, ⟨B, -, he⟩ | ⟨fa, -, he⟩⟩ := s.engineStep_cases <;> rw [he]
  · exact hidle
  · rfl
  · rfl

/-- A step after which a job still runs keeps it, RES and the report. -/
theorem ReportKept.of_step {s t : State} (hinv : s.StatusInv) (hstep : step s = .next t) (hbusy : s.phase ≠ .idle)
    (hstill : t.phase ≠ .idle) : ReportKept s t := by
  obtain ⟨r, w, u, hn, rfl⟩ | ⟨u, -, rfl⟩ | ⟨u, -, rfl⟩ | hkept := step_effects hstep
  · have hu := RegistersKept.of_hostNext hn
    exact hu.reportKept.trans (.writeReg (hu.phase ▸ hbusy) (hu.done.trans (hinv.1 hbusy)) r w)
  · exact absurd u.engineStep_phase hstill
  · exact absurd u.resetBlock_phase hstill
  · exact hkept.reportKept

/-- Settles O37: JOB is part of PHASE. -/
theorem runningJobKeepsSnapshotAndResult : Obligations.RunningJobKeepsSnapshotAndResult := by
  intro s t j j' hinv hstep hj hj'
  obtain ⟨hphase, hres, herrAddr, hdone, herr, herrcode⟩ := ReportKept.of_step hinv hstep (by simp [hj]) (by simp [hj'])
  rw [hj, hj', Phase.busy.injEq] at hphase
  exact ⟨hphase, hres, herrAddr, hdone, herr, herrcode⟩

end Sys2Proof.Machine
end

section
/-! PROOFS. Scope: reset, and the progress of a running job along the schedule (70_reset_and_hazards.md rules R1000,
R1001, R1004 and R1006; 10_state.md section 5). -/

namespace Sys2Proof.Machine

/-! ### Progress -/

/-- A defined access is the own access of some register. -/
theorem Access.exists_eq_access_of_wf {base : Nat} {a : Access} (h : a.wf base = true) :
    ∃ r : Reg, a = r.access base :=
  (Access.resolve_of_wf h).imp fun _ hr => Access.eq_access_of_resolve hr

/-- The host's further statements and the schedule are none of the block's registers: no write touches them. -/
theorem State.writeReg_host_turns (r : Reg) (w : Word) (s : State) :
    (s.writeReg r w).host = s.host ∧ (s.writeReg r w).turns = s.turns := by
  cases r with
  | ctrl =>
    rw [State.writeReg_ctrl]
    obtain h | ⟨-, -, e, -, h⟩ | ⟨-, f, -, -, h⟩ := s.writeCtrl_outcomes w <;> rw [h] <;> exact ⟨rfl, rfl⟩
  | status => exact ⟨State.acknowledge_host w s, State.acknowledge_turns w s⟩
  | _ => exact ⟨rfl, rfl⟩

/-- Moving past a host statement leaves statements that were there before. -/
theorem HostNext.host_subset {s u : State} {stmt : HostStmt} (h : HostNext s stmt u) : u.host ⊆ s.host := by
  obtain ⟨rest, ts, hhost, rfl⟩ := h.moved
  simp [hhost]

/-- A defined statement never stops the machine (R1004): its step takes the turn and adds no statement. -/
theorem step_of_wf {s u : State} {stmt : HostStmt} (hn : HostNext s stmt u)
    (hwf : HostStmt.wf s.cfg.regBase stmt = true) :
    ∃ t, step s = .next t ∧ t.turns = u.turns ∧ t.host ⊆ s.host := by
  have hsubset := hn.host_subset
  cases stmt with
  | wr a w =>
    obtain ⟨r, rfl⟩ := Access.exists_eq_access_of_wf hwf
    obtain ⟨hhost, hturns⟩ := u.writeReg_host_turns r w
    exact ⟨_, step_of_write hn, hturns, hhost ▸ hsubset⟩
  | rd a x =>
    obtain ⟨r, rfl⟩ := Access.exists_eq_access_of_wf hwf
    exact ⟨_, step_of_read hn, rfl, hsubset⟩
  | poll a mask =>
    obtain ⟨r, rfl⟩ := Access.exists_eq_access_of_wf hwf
    refine ⟨_, step_of_poll hn, ?_⟩
    split
    · exact ⟨rfl, hsubset⟩
    · exact ⟨rfl, List.Subset.refl _⟩
  | mem addr bytes =>
    have hfits : addr.toNat + bytes.length ≤ 2 ^ 32 := of_decide_eq_true hwf
    exact ⟨_, (step_of_store hn).trans (if_pos hfits), State.storeBytes_turns _ _ u,
      (State.storeBytes_host _ _ u).symm ▸ hsubset⟩

section
variable {s : State} {ts : List Turn} (hturns : s.turns = .host :: ts)
include hturns

/-- A scheduled host turn is taken by the next statement, or passes when there is none. -/
theorem step_of_hostTurn (hwf : ∀ stmt ∈ s.host, HostStmt.wf s.cfg.regBase stmt = true) :
    ∃ t, step s = .next t ∧ t.turns = ts ∧ t.host ⊆ s.host := by
  cases hhost : s.host with
  | nil =>
    exact ⟨{ s with turns := ts }, by simp [step, State.nextMove, State.hostMove, hturns, hhost], rfl, by simp [hhost]⟩
  | cons stmt rest =>
    have hn : HostNext s stmt { s with host := rest, turns := ts } := ⟨rest, hhost, .inl ⟨ts, hturns, rfl⟩⟩
    rw [← hhost]
    exact step_of_wf hn (hwf stmt (by simp [hhost]))

/-- No host step ends a running job (R801). -/
theorem phase_ne_idle_of_hostTurn {t : State} (hbusy : s.phase ≠ .idle) (hstep : step s = .next t) :
    t.phase ≠ .idle := by
  intro hidle
  obtain ⟨u, ⟨_, hengine, -⟩ | ⟨hnone, -⟩⟩ | ⟨u, _, hreset, -⟩ :=
    (phaseChangesOnlyByCommandCompletionOrReset s t hstep).1 hbusy hidle
  · simp [hturns] at hengine
  · simp [hturns] at hnone
  · simp [hturns] at hreset

end

/-- The engine's turn ends a running job with its report. -/
theorem RunsTo.engineTurn {s u : State} (hn : EngineNext s u) (hbusy : s.phase ≠ .idle) :
    ∃ t, RunsTo 1 s t ∧ t.phase = .idle ∧ t.done = true :=
  have hbusy' : u.phase ≠ .idle := (RegistersKept.of_engineNext hn).phase ▸ hbusy
  ⟨u.engineStep, .of_step (step_of_engineNext hn) (.zero _), u.engineStep_phase,
    (State.engineStep_done_of_busy hbusy').1⟩

/-- Settles O20, by induction on the schedule: a host turn leaves a BUSY state with one turn less, every other turn ends
the job, and so does the engine once the schedule is used up. -/
theorem everyAcceptedJobCompletes : Obligations.EveryAcceptedJobCompletes := by
  intro s
  induction hturns : s.turns generalizing s with
  | nil =>
    intro hbusy _
    obtain ⟨t, hrun, hidle, hdone⟩ := RunsTo.engineTurn (.inr ⟨hturns, hbusy, rfl⟩) hbusy
    exact ⟨1, t, Nat.le_refl 1, hrun, hidle, fun _ => hdone⟩
  | cons turn ts ih =>
    intro hbusy hwf
    cases turn with
    | host =>
      obtain ⟨t, hstep, hrest, hsubset⟩ := step_of_hostTurn hturns hwf
      have hcfg := (buildAndMemoryAreNotTheEnginesToChange s t hstep).1
      obtain ⟨k, u, hk, hrun, hidle, hdone⟩ := ih t hrest (phase_ne_idle_of_hostTurn hturns hbusy hstep)
        fun stmt hmem => hcfg ▸ hwf stmt (hsubset hmem)
      exact ⟨k + 1, u, Nat.succ_le_succ hk, RunsTo.of_step hstep hrun, hidle,
        fun hreset => hdone fun hmem => hreset (.tail _ hmem)⟩
    | engine =>
      obtain ⟨t, hrun, hidle, hdone⟩ := RunsTo.engineTurn (.inl ⟨ts, hturns, rfl⟩) hbusy
      exact ⟨1, t, Nat.le_add_left 1 _, hrun, hidle, fun _ => hdone⟩
    | reset =>
      exact ⟨1, _, Nat.le_add_left 1 _, RunsTo.of_step (step_of_resetNext ⟨ts, hturns, rfl⟩) (.zero _), rfl,
        fun hreset => absurd (.head _) hreset⟩

/-! ### Reset -/

/-- Settles O21: the step is the reset of the block, with the next three draws in SEED, SRC and LEN. -/
theorem resetClearsTheBlock : Obligations.ResetClearsTheBlock := by
  intro s t hn
  refine ⟨Config.freeWord t.draws, Config.freeWord (t.draws + 1), Config.freeWord (t.draws + 2), ?_⟩
  rw [step_of_resetNext hn]
  obtain ⟨ts, -, rfl⟩ := hn
  rfl

/-- With VARIANT and IE clear CTRL reads 0 (R106). -/
theorem State.ctrlWord_eq_zero {s : State} (hvariant : s.variant = 0) (hie : s.ie = false) : s.ctrlWord = 0 := by
  rw [State.ctrlWord, hvariant, hie]
  rfl

/-- Without a job and without a report STATUS reads 0 (R107). -/
theorem State.statusWord_eq_zero {s : State} (hidle : s.phase = .idle) (hdone : s.done = false) (herr : s.err = false)
    (herrcode : s.errcode = 0) : s.statusWord = 0 := by
  rw [State.statusWord, (State.busy_eq_false_iff s).mpr hidle, hdone, herr, herrcode]
  rfl

/-- Settles O22: CTRL, STATUS and irq by the fields they show, the other registers by their reset values. -/
theorem stateAfterReset : Obligations.StateAfterReset :=
  ⟨rfl, fun _ => ⟨State.ctrlWord_eq_zero rfl rfl, State.statusWord_eq_zero rfl rfl rfl rfl, rfl, rfl, rfl, rfl, rfl,
    State.irq_of_not_done rfl, rfl, rfl⟩⟩

/-- The reset state has no report, no job and an empty input space. -/
theorem State.afterReset_inv (c : Config) : (State.afterReset c).Inv :=
  ⟨by simp [State.StatusInv, State.afterReset], State.jobInv_of_idle rfl rfl, rfl⟩

/-- Settles O35: State.reset is the reset state of the default build. -/
theorem resetStateIsGood : Obligations.ResetStateIsGood := ⟨State.afterReset_inv Config.default, State.afterReset_inv⟩

end Sys2Proof.Machine
end
